-- ==== Sys2Proof/Word.lean ====
section
/-! DEFINITION. The widths of the machine's values (spec/00_scope.md R7): bytes, 16-bit words and the fields of an
instruction word. -/
namespace Sys2Proof

/-- A memory byte, a general register or a timer (R7: V_WIDTH, TIMER_WIDTH). -/
abbrev Byte := BitVec 8

/-- An instruction word, the program counter, the index register or a return address (R7). -/
abbrev Word := BitVec 16

/-- A 4-bit field of an instruction word (spec/00_scope.md R14, "Nibble"). -/
abbrev Nibble := BitVec 4

/-- The number of a general register, V0 to VF (spec/30_encoding.md R74). -/
abbrev RegIdx := BitVec 4

/-- The 12-bit address immediate `addr` (spec/30_encoding.md R71, R73). -/
abbrev Addr := BitVec 12

/-- The number of a key, 0 to 15 (R7: NUM_KEYS). -/
abbrev Key := BitVec 4

end Sys2Proof
end

