-- ==== Sys2Proof/WellFormed.lean ====
section
/-! DEFINITION. Which operands the encoding admits (spec/30_encoding.md R71, R74, R80). An operand is checked as the
number an assembler reads; an instruction's fields carry their widths in their types, so all its operands pass
(Laws/PerInstr.lean proves it constructor by constructor). -/
namespace Sys2Proof

/-- One operand as a number, before its width is known (R80: register, byte, 12-bit address, nibble). -/
inductive Operand where
  | reg (n : Nat)
  | byte (n : Nat)
  | addr (n : Nat)
  | count (n : Nat)
  deriving DecidableEq, Repr

/-- The range each kind of operand has (R71 and R80: `V0`-`VF`, `0x00`-`0xFF`, a 12-bit address, a nibble). -/
def Operand.wellFormed : Operand → Bool
  | .reg n => n < 16
  | .byte n => n < 256
  | .addr n => n < 4096
  | .count n => n < 16

/-- The operands an instruction names, in the order of its assembler form (R77). -/
def Instr.operands : Instr → List Operand
  | .cls | .ret => []
  | .jp a | .call a | .ldI a | .jpV0 a => [.addr a.toNat]
  | .seImm x nn | .sneImm x nn | .ldImm x nn | .addImm x nn | .rnd x nn => [.reg x.toNat, .byte nn.toNat]
  | .seReg x y | .sneReg x y | .ldReg x y | .orReg x y | .andReg x y | .xorReg x y | .addReg x y
  | .subReg x y | .shrReg x y | .subnReg x y | .shlReg x y => [.reg x.toNat, .reg y.toNat]
  | .drw x y n => [.reg x.toNat, .reg y.toNat, .count n.toNat]
  | .skp x | .sknp x | .ldVxDT x | .ldVxK x | .ldDTVx x | .ldSTVx x | .addI x | .ldF x | .ldB x
  | .storeRegs x | .loadRegs x => [.reg x.toNat]

/-- An instruction is well formed when every operand it names is in its range. -/
def Instr.WellFormed (i : Instr) : Bool := i.operands.all Operand.wellFormed

end Sys2Proof
end

