-- ==== Sys2Proof/Decode.lean ====
section
/-! DEFINITION. Decoding (spec/30_encoding.md R70-R79), total on any bytes and rejecting by name, and the encoder
written from the same table (R77). -/
namespace Sys2Proof

/-- A word from its two bytes, the byte at the lower address first (spec/20_memory.md R55, R56). -/
def wordOfBytes (hi lo : Byte) : Word := hi ++ lo

/-- Bits 15-8 of a word: the byte stored at the lower address (R56). -/
def hiByte (w : Word) : Byte := w.extractLsb' 8 8

/-- Bits 7-0 of a word: the byte stored at the higher address (R56). -/
def loByte (w : Word) : Byte := w.extractLsb' 0 8

/-! ### The six fields cut from every word (R71) -/

/-- `op` = w[15:12]. -/
def opField (w : Word) : Nibble := w.extractLsb' 12 4

/-- `x` = w[11:8]. -/
def xField (w : Word) : RegIdx := w.extractLsb' 8 4

/-- `y` = w[7:4]. -/
def yField (w : Word) : RegIdx := w.extractLsb' 4 4

/-- `n` = w[3:0]. -/
def nField (w : Word) : Nibble := w.extractLsb' 0 4

/-- `nn` = w[7:0]. -/
def nnField (w : Word) : Byte := w.extractLsb' 0 8

/-- `addr` = w[11:0]. -/
def addrField (w : Word) : Addr := w.extractLsb' 0 12

/-! ### Decoding -/

/-- Why bytes hold no instruction. -/
inductive DecodeError where
  /-- The word matches no row of the table (R75, R79); executing it raises UnknownOpcode. -/
  | illegal (w : Word)
  /-- Fewer than two bytes are left, so there is no word to decode (R70). -/
  | truncated (available : Nat)
  deriving DecidableEq, Repr

/-- Family 8: the low nibble selects the operation (R78). -/
def decodeAlu (w : Word) : Except DecodeError Instr :=
  if nField w = 0x0#4 then .ok (.ldReg (xField w) (yField w))
  else if nField w = 0x1#4 then .ok (.orReg (xField w) (yField w))
  else if nField w = 0x2#4 then .ok (.andReg (xField w) (yField w))
  else if nField w = 0x3#4 then .ok (.xorReg (xField w) (yField w))
  else if nField w = 0x4#4 then .ok (.addReg (xField w) (yField w))
  else if nField w = 0x5#4 then .ok (.subReg (xField w) (yField w))
  else if nField w = 0x6#4 then .ok (.shrReg (xField w) (yField w))
  else if nField w = 0x7#4 then .ok (.subnReg (xField w) (yField w))
  else if nField w = 0xE#4 then .ok (.shlReg (xField w) (yField w))
  else .error (.illegal w)

/-- Family E: the low byte selects the operation (R78). -/
def decodeKeys (w : Word) : Except DecodeError Instr :=
  if nnField w = 0x9E#8 then .ok (.skp (xField w))
  else if nnField w = 0xA1#8 then .ok (.sknp (xField w))
  else .error (.illegal w)

/-- Family F: the low byte selects the operation (R78). -/
def decodeMisc (w : Word) : Except DecodeError Instr :=
  if nnField w = 0x07#8 then .ok (.ldVxDT (xField w))
  else if nnField w = 0x0A#8 then .ok (.ldVxK (xField w))
  else if nnField w = 0x15#8 then .ok (.ldDTVx (xField w))
  else if nnField w = 0x18#8 then .ok (.ldSTVx (xField w))
  else if nnField w = 0x1E#8 then .ok (.addI (xField w))
  else if nnField w = 0x29#8 then .ok (.ldF (xField w))
  else if nnField w = 0x33#8 then .ok (.ldB (xField w))
  else if nnField w = 0x55#8 then .ok (.storeRegs (xField w))
  else if nnField w = 0x65#8 then .ok (.loadRegs (xField w))
  else .error (.illegal w)

/-- Family 0: two words only (R76, R78). -/
def decodeSystem (w : Word) : Except DecodeError Instr :=
  if w = 0x00E0#16 then .ok .cls
  else if w = 0x00EE#16 then .ok .ret
  else .error (.illegal w)

/-- The decode procedure of R78. Every constant bit is checked (R76). -/
def decode (w : Word) : Except DecodeError Instr :=
  if opField w = 0x0#4 then decodeSystem w
  else if opField w = 0x1#4 then .ok (.jp (addrField w))
  else if opField w = 0x2#4 then .ok (.call (addrField w))
  else if opField w = 0x3#4 then .ok (.seImm (xField w) (nnField w))
  else if opField w = 0x4#4 then .ok (.sneImm (xField w) (nnField w))
  else if opField w = 0x5#4 then
    if nField w = 0x0#4 then .ok (.seReg (xField w) (yField w)) else .error (.illegal w)
  else if opField w = 0x6#4 then .ok (.ldImm (xField w) (nnField w))
  else if opField w = 0x7#4 then .ok (.addImm (xField w) (nnField w))
  else if opField w = 0x8#4 then decodeAlu w
  else if opField w = 0x9#4 then
    if nField w = 0x0#4 then .ok (.sneReg (xField w) (yField w)) else .error (.illegal w)
  else if opField w = 0xA#4 then .ok (.ldI (addrField w))
  else if opField w = 0xB#4 then .ok (.jpV0 (addrField w))
  else if opField w = 0xC#4 then .ok (.rnd (xField w) (nnField w))
  else if opField w = 0xD#4 then .ok (.drw (xField w) (yField w) (nField w))
  else if opField w = 0xE#4 then decodeKeys w
  else decodeMisc w

/-- The first instruction of a byte sequence, and the bytes after it (R70: two bytes each). -/
def decodeBytes : List Byte → Except DecodeError (Instr × List Byte)
  | hi :: lo :: rest =>
    match decode (wordOfBytes hi lo) with
    | .ok i => .ok (i, rest)
    | .error e => .error e
  | bs => .error (.truncated bs.length)

/-! ### The opcode table and the encoder -/

/-- A row of the opcode map (R77): the fixed bits of an instruction. -/
structure Row where
  mask : Word
  bits : Word
  deriving DecidableEq, Repr

/-- The row an instruction belongs to (R77). -/
def Instr.row : Instr → Row
  | .cls => ⟨0xFFFF#16, 0x00E0#16⟩
  | .ret => ⟨0xFFFF#16, 0x00EE#16⟩
  | .jp _ => ⟨0xF000#16, 0x1000#16⟩
  | .call _ => ⟨0xF000#16, 0x2000#16⟩
  | .seImm _ _ => ⟨0xF000#16, 0x3000#16⟩
  | .sneImm _ _ => ⟨0xF000#16, 0x4000#16⟩
  | .seReg _ _ => ⟨0xF00F#16, 0x5000#16⟩
  | .ldImm _ _ => ⟨0xF000#16, 0x6000#16⟩
  | .addImm _ _ => ⟨0xF000#16, 0x7000#16⟩
  | .ldReg _ _ => ⟨0xF00F#16, 0x8000#16⟩
  | .orReg _ _ => ⟨0xF00F#16, 0x8001#16⟩
  | .andReg _ _ => ⟨0xF00F#16, 0x8002#16⟩
  | .xorReg _ _ => ⟨0xF00F#16, 0x8003#16⟩
  | .addReg _ _ => ⟨0xF00F#16, 0x8004#16⟩
  | .subReg _ _ => ⟨0xF00F#16, 0x8005#16⟩
  | .shrReg _ _ => ⟨0xF00F#16, 0x8006#16⟩
  | .subnReg _ _ => ⟨0xF00F#16, 0x8007#16⟩
  | .shlReg _ _ => ⟨0xF00F#16, 0x800E#16⟩
  | .sneReg _ _ => ⟨0xF00F#16, 0x9000#16⟩
  | .ldI _ => ⟨0xF000#16, 0xA000#16⟩
  | .jpV0 _ => ⟨0xF000#16, 0xB000#16⟩
  | .rnd _ _ => ⟨0xF000#16, 0xC000#16⟩
  | .drw _ _ _ => ⟨0xF000#16, 0xD000#16⟩
  | .skp _ => ⟨0xF0FF#16, 0xE09E#16⟩
  | .sknp _ => ⟨0xF0FF#16, 0xE0A1#16⟩
  | .ldVxDT _ => ⟨0xF0FF#16, 0xF007#16⟩
  | .ldVxK _ => ⟨0xF0FF#16, 0xF00A#16⟩
  | .ldDTVx _ => ⟨0xF0FF#16, 0xF015#16⟩
  | .ldSTVx _ => ⟨0xF0FF#16, 0xF018#16⟩
  | .addI _ => ⟨0xF0FF#16, 0xF01E#16⟩
  | .ldF _ => ⟨0xF0FF#16, 0xF029#16⟩
  | .ldB _ => ⟨0xF0FF#16, 0xF033#16⟩
  | .storeRegs _ => ⟨0xF0FF#16, 0xF055#16⟩
  | .loadRegs _ => ⟨0xF0FF#16, 0xF065#16⟩

/-- One instruction of each row of the families 0 to 7, in the table's order. -/
def tableInstrs0to7 : List Instr :=
  [.cls, .ret, .jp 0#12, .call 0#12, .seImm 0#4 0#8, .sneImm 0#4 0#8, .seReg 0#4 0#4, .ldImm 0#4 0#8,
   .addImm 0#4 0#8]

/-- One instruction of each row of the family 8. -/
def tableInstrs8 : List Instr :=
  [.ldReg 0#4 0#4, .orReg 0#4 0#4, .andReg 0#4 0#4, .xorReg 0#4 0#4, .addReg 0#4 0#4, .subReg 0#4 0#4,
   .shrReg 0#4 0#4, .subnReg 0#4 0#4, .shlReg 0#4 0#4]

/-- One instruction of each row of the families 9 to E. -/
def tableInstrs9toE : List Instr :=
  [.sneReg 0#4 0#4, .ldI 0#12, .jpV0 0#12, .rnd 0#4 0#8, .drw 0#4 0#4 0#4, .skp 0#4, .sknp 0#4]

/-- One instruction of each row of the family F. -/
def tableInstrsF : List Instr :=
  [.ldVxDT 0#4, .ldVxK 0#4, .ldDTVx 0#4, .ldSTVx 0#4, .addI 0#4, .ldF 0#4, .ldB 0#4, .storeRegs 0#4, .loadRegs 0#4]

/-- One instruction of each row, in the table's order. -/
def tableInstrs : List Instr := tableInstrs0to7 ++ tableInstrs8 ++ tableInstrs9toE ++ tableInstrsF

/-- The opcode map of R77, as its masks and fixed bits. -/
def opcodeTable : List Row := tableInstrs.map Instr.row

/-- A word belongs to a row when its fixed bits are the row's (R75). -/
def Row.selects (r : Row) (w : Word) : Bool := w &&& r.mask == r.bits

/-- Format A (R72): operation, 12-bit address. -/
def encodeA (op : Nibble) (addr : Addr) : Word := op ++ addr

/-- Format XNN (R72): operation, register, byte. Format XS is this one with a constant byte. -/
def encodeXNN (op : Nibble) (x : RegIdx) (nn : Byte) : Word := op ++ x ++ nn

/-- Formats XYS and XYN (R72): operation, two registers, a nibble. -/
def encodeXYN (op : Nibble) (x y : RegIdx) (n : Nibble) : Word := op ++ x ++ y ++ n

/-- The word of an instruction (R72, R77). -/
def encode : Instr → Word
  | .cls => 0x00E0#16
  | .ret => 0x00EE#16
  | .jp a => encodeA 0x1#4 a
  | .call a => encodeA 0x2#4 a
  | .seImm x nn => encodeXNN 0x3#4 x nn
  | .sneImm x nn => encodeXNN 0x4#4 x nn
  | .seReg x y => encodeXYN 0x5#4 x y 0x0#4
  | .ldImm x nn => encodeXNN 0x6#4 x nn
  | .addImm x nn => encodeXNN 0x7#4 x nn
  | .ldReg x y => encodeXYN 0x8#4 x y 0x0#4
  | .orReg x y => encodeXYN 0x8#4 x y 0x1#4
  | .andReg x y => encodeXYN 0x8#4 x y 0x2#4
  | .xorReg x y => encodeXYN 0x8#4 x y 0x3#4
  | .addReg x y => encodeXYN 0x8#4 x y 0x4#4
  | .subReg x y => encodeXYN 0x8#4 x y 0x5#4
  | .shrReg x y => encodeXYN 0x8#4 x y 0x6#4
  | .subnReg x y => encodeXYN 0x8#4 x y 0x7#4
  | .shlReg x y => encodeXYN 0x8#4 x y 0xE#4
  | .sneReg x y => encodeXYN 0x9#4 x y 0x0#4
  | .ldI a => encodeA 0xA#4 a
  | .jpV0 a => encodeA 0xB#4 a
  | .rnd x nn => encodeXNN 0xC#4 x nn
  | .drw x y n => encodeXYN 0xD#4 x y n
  | .skp x => encodeXNN 0xE#4 x 0x9E#8
  | .sknp x => encodeXNN 0xE#4 x 0xA1#8
  | .ldVxDT x => encodeXNN 0xF#4 x 0x07#8
  | .ldVxK x => encodeXNN 0xF#4 x 0x0A#8
  | .ldDTVx x => encodeXNN 0xF#4 x 0x15#8
  | .ldSTVx x => encodeXNN 0xF#4 x 0x18#8
  | .addI x => encodeXNN 0xF#4 x 0x1E#8
  | .ldF x => encodeXNN 0xF#4 x 0x29#8
  | .ldB x => encodeXNN 0xF#4 x 0x33#8
  | .storeRegs x => encodeXNN 0xF#4 x 0x55#8
  | .loadRegs x => encodeXNN 0xF#4 x 0x65#8

/-- The bytes of an instruction as memory holds them, lower address first (R56). -/
def encodeBytes (i : Instr) : List Byte := [hiByte (encode i), loByte (encode i)]

/-- The word the table numbers `w` on `nbits` bits: the bits above `nbits` are 0, and no instruction has a second
word (R70). -/
def tableWord (nbits w : Nat) : Word := BitVec.ofNat 16 (w % 2 ^ nbits)

/-- The instruction the decoder reads from the bytes of a table word. -/
def decodeTableWord (nbits w : Nat) : Option Instr :=
  match decodeBytes [hiByte (tableWord nbits w), loByte (tableWord nbits w)] with
  | .ok (i, _) => some i
  | .error _ => none

end Sys2Proof
end

