-- ==== Sys2Proof/Config.lean ====
section
/-! DEFINITION. What an implementation fixes (the open parameters of spec/00_scope.md R8) and what the environment
supplies afresh in every cycle (the cycle input record of spec/40_cycle.md R90, a free value here). -/
namespace Sys2Proof

/-- The parameter DRAW_EDGE (spec/00_scope.md R8, spec/43_index_random_draw.md R144): what becomes of a sprite pixel
outside the 64 x 32 display. -/
inductive DrawEdge where
  | wrap
  | clip
  | wrapStartClip
  | fault
  deriving DecidableEq, Repr

/-- The open parameters of spec/00_scope.md R8. They are not core state (spec/10_state.md R36(e)) and no step changes
them. -/
structure Config where
  /-- STACK_DEPTH: `none` is the spec's `unbounded`. -/
  stackDepth : Option Nat
  /-- DRAW_EDGE. -/
  drawEdge : DrawEdge
  /-- SHIFT_FLAG_NORMALIZE. -/
  shiftFlagNormalize : Bool
  /-- FONT: the reset contents of addresses 0x000 to 0x04F. -/
  font : Vector Byte 80
  deriving DecidableEq, Repr

/-- The input record of one cycle (spec/40_cycle.md R90). -/
structure CycleInput where
  /-- The key pressed since the last cycle, if any (spec/60_exceptions.md R186). -/
  keyEvent : Option Key
  /-- The Input Source's answer to `is_pressed` for each key (R184). -/
  pressed : Vector Bool 16
  /-- The random-byte source's next byte (R185). -/
  rand : Byte
  deriving DecidableEq, Repr, Inhabited

/-- FREE VALUE (log entry 2). The input record the environment chooses for the cycle numbered `n`, where State lists
none: R90 calls each field "a free input of the step, chosen by the environment". It has no body. -/
opaque Config.freeInput : Nat → CycleInput

end Sys2Proof
end

