-- ==== Sys2Proof/Machine/Params.lean ====
section
/-! DEFINITION. The fixed numbers of spec/00_scope.md R7 and the default value of each open parameter (R8). -/
namespace Sys2Proof.Machine

/-- MEM_SIZE (R7). -/
def memSize : Nat := 4096

/-- PROG_BASE (R7): where a program is loaded. -/
def progBase : Nat := 0x200

/-- PC_RESET (R7). -/
def pcReset : Word := 0x200#16

/-- The sprites of the digits 0 to 3 (spec/10_state.md R33). -/
def fontDigits0to3 : List Byte :=
  [0xF0, 0x90, 0x90, 0x90, 0xF0, 0x20, 0x60, 0x20, 0x20, 0x70,
   0xF0, 0x10, 0xF0, 0x80, 0xF0, 0xF0, 0x10, 0xF0, 0x10, 0xF0]

/-- The sprites of the digits 4 to 7 (R33). -/
def fontDigits4to7 : List Byte :=
  [0x90, 0x90, 0xF0, 0x10, 0x10, 0xF0, 0x80, 0xF0, 0x10, 0xF0,
   0xF0, 0x80, 0xF0, 0x90, 0xF0, 0xF0, 0x10, 0x20, 0x40, 0x40]

/-- The sprites of the digits 8 to B (R33). -/
def fontDigits8toB : List Byte :=
  [0xF0, 0x90, 0xF0, 0x90, 0xF0, 0xF0, 0x90, 0xF0, 0x10, 0xF0,
   0xF0, 0x90, 0xF0, 0x90, 0x90, 0xE0, 0x90, 0xE0, 0x90, 0xE0]

/-- The sprites of the digits C to F (R33). -/
def fontDigitsCtoF : List Byte :=
  [0xF0, 0x80, 0x80, 0x80, 0xF0, 0xE0, 0x90, 0x90, 0x90, 0xE0,
   0xF0, 0x80, 0xF0, 0x80, 0xF0, 0xF0, 0x80, 0xF0, 0x80, 0x80]

/-- The default of FONT. PRESUMED (log entry 4): the spec marks these 80 bytes as general knowledge, not in its
source (spec/93_implementation_defined.md G1). -/
def defaultFont : Vector Byte 80 :=
  ⟨(fontDigits0to3 ++ fontDigits4to7 ++ fontDigits8toB ++ fontDigitsCtoF).toArray, rfl⟩

/-- The default value of every open parameter (R8). -/
def defaultConfig : Config :=
  { stackDepth := some 16, drawEdge := .wrap, shiftFlagNormalize := false, font := defaultFont }

/-- The reset contents of memory (R33, R37): the font from address 0, zero everywhere else. -/
def resetByte (c : Config) (a : Nat) : Byte := if h : a < 80 then c.font[a] else 0

end Sys2Proof.Machine
end

