-- ==== Sys2Proof/Machine/Memory.lean ====
section
/-! DEFINITION. Memory as plain data: the cells that differ from the reset contents, addresses strictly rising. What an
unlisted address reads as is the reset contents (`resetByte`, spec/10_state.md R37). -/
namespace Sys2Proof.Machine

/-- The listed cells of memory. -/
abbrev Memory := List Host.Cell

/-- The byte at an address. -/
def readCell (c : Config) : Memory → Nat → Byte
  | [], a => resetByte c a
  | (k, v) :: rest, a => if a = k then v else readCell c rest a

/-- The cell list with address `a` holding `b` before the cells `rest`; none is listed when `b` is what an unlisted
`a` reads as. -/
def consCell (c : Config) (a : Nat) (b : Byte) (rest : Memory) : Memory :=
  if b = resetByte c a then rest else (a, b) :: rest

/-- Writes one byte; keeps the canonical form. -/
def writeCell (c : Config) : Memory → Nat → Byte → Memory
  | [], a, b => consCell c a b []
  | (k, v) :: rest, a, b =>
    if a < k then consCell c a b ((k, v) :: rest)
    else if a = k then consCell c a b rest
    else (k, v) :: writeCell c rest a b

/-- The canonical form from address `lo` up: addresses strictly rising, inside memory, and no cell equal to what its
address reads as unlisted. -/
def memWfFrom (c : Config) : Nat → Memory → Bool
  | _, [] => true
  | lo, (k, v) :: rest => lo ≤ k && k < memSize && v != resetByte c k && memWfFrom c (k + 1) rest

/-- The canonical form of memory. -/
def Memory.wf (c : Config) (m : Memory) : Bool := memWfFrom c 0 m

end Sys2Proof.Machine
end

