-- ==== Sys2Proof/Machine/State.lean ====
section
/-! DEFINITION. The machine's state (spec/10_state.md R20-R37, the display frame buffer of spec/60_exceptions.md R180,
the pending cycle input records of spec/40_cycle.md R90 and the parameters of spec/00_scope.md R8), the reasons of a
fault, and reset. -/
namespace Sys2Proof.Machine

/-- The fault kinds with the value each records (spec/60_exceptions.md R170). Every one is TAKEN: the step answers a
next state whose fault latch holds it (R175, R176), so no step answers a stop (log entry 1). Taking them is exact by
the spec's rules; log entry 1 says where it is unsafe. -/
inductive Fault where
  /-- Raised by the host's program load (spec/70_reset_and_hazards.md R201): the program's length. Safe: the load
  writes nothing. -/
  | programTooLarge (length : Nat)
  /-- Raised by a cycle that fetches an illegal word (spec/30_encoding.md R79): the word. Safe: nothing else changes. -/
  | unknownOpcode (w : Word)
  /-- Raised by `00EE` on an empty stack (spec/10_state.md R28). Safe. -/
  | stackUnderflow
  /-- Raised by `2nnn` on a full stack (R27, spec decision D5). Safe: it stops where an unbounded stack goes on. -/
  | stackOverflow
  /-- Raised by fetch, `Dxyn`, `Fx33`, `Fx55`, `Fx65` (spec/20_memory.md R53-R55, spec decision D2): the lowest
  offending address. Safe. -/
  | memoryBounds (a : Nat)
  /-- Raised by `Ex9E` and `ExA1` when `V[x] > 15` (spec decision D7): the value. Safe. -/
  | invalidKey (k : Byte)
  /-- Raised by `Dxyn` with DRAW_EDGE = Fault only (spec decision D8): the pixel coordinate. Safe. -/
  | drawOutOfRange (px py : Nat)
  deriving DecidableEq, Repr

/-- Why a step has no meaning. No arm of exec is refused, so nothing raises it. -/
inductive Refusal where
  /-- Raised by an arm of exec whose instruction has no meaning yet; safe. -/
  | notModelled (mnemonic : String)
  deriving DecidableEq, Repr

/-- What the fault latch holds (spec/10_state.md R32): the kind with its info, and pc in the faulting cycle. -/
structure FaultRecord where
  kind : Fault
  faultPc : Word
  deriving DecidableEq, Repr

/-- The display frame buffer (spec/60_exceptions.md R180): 32 rows of 64 one-bit pixels, `fb[py][px]`. -/
abbrev FrameBuffer := Vector (Vector Bool 64) 32

/-- The state of the machine. -/
structure State where
  /-- Memory (spec/20_memory.md R50): the cells that differ from its reset contents. -/
  mem : Memory
  /-- The general registers V0 to VF (spec/10_state.md R20). -/
  v : Vector Byte 16
  /-- The index register I (R25). -/
  i : Word
  /-- The program counter (R23). -/
  pc : Word
  /-- The call stack, top first (R26); its length is SP. -/
  stack : List Word
  /-- The delay timer DT (R29). -/
  dt : Byte
  /-- The sound timer ST (R29). -/
  st : Byte
  /-- The paused flag (R30). -/
  paused : Bool
  /-- The wait-register latch W (R31). -/
  w : RegIdx
  /-- The fault latch (R32); the core is halted while it is not `none`. -/
  fault : Option FaultRecord
  /-- The display frame buffer, platform state (spec/60_exceptions.md R180). -/
  fb : FrameBuffer
  /-- The pending cycle input records, this cycle's first (spec/40_cycle.md R90). The model's own field (log entry 2). -/
  inputs : List CycleInput
  /-- The number the free input records are applied to. The model's own field (log entry 2). -/
  cycles : Nat
  /-- The open parameters (spec/00_scope.md R8), which no step changes (log entry 3). -/
  cfg : Config
  deriving DecidableEq, Repr

/-- The reset state under given parameters (spec/10_state.md R37, spec/70_reset_and_hazards.md R200). -/
def State.resetWith (c : Config) : State :=
  { mem := [], v := Vector.replicate 16 0, i := 0, pc := pcReset, stack := [], dt := 0, st := 0, paused := false,
    w := 0, fault := none, fb := Vector.replicate 32 (Vector.replicate 64 false), inputs := [], cycles := 0, cfg := c }

/-- The machine right after reset, with the default parameters. -/
def State.reset : State := State.resetWith defaultConfig

end Sys2Proof.Machine
end

