-- ==== Sys2Proof/Machine/Ops.lean ====
section
/-! DEFINITION. The named operations over registers, memory, the call stack and the program counter, and the one
operation that takes a fault (spec/00_scope.md R11 names the primitives). -/
namespace Sys2Proof.Machine

/-- What a meaning answers. -/
abbrev Result := Host.Outcome State Fault Refusal

/-! ### Registers (spec/10_state.md R20) -/

/-- `V[x]`. -/
def State.reg (s : State) (x : RegIdx) : Byte := s.v[x.toNat]'x.isLt

/-- `V[x] <- b`. -/
def State.setReg (s : State) (x : RegIdx) (b : Byte) : State := { s with v := s.v.set x.toNat b x.isLt }

/-- `VF`, the flag register (spec/10_state.md R21). -/
def vf : RegIdx := 0xF#4

/-- `V[0..x]`, the block of `Fx55` (spec/30_encoding.md R74). -/
def State.regBlock (s : State) (x : RegIdx) : List Byte := s.v.toList.take (x.toNat + 1)

/-- `V[k], V[k+1], … <- bs`, the writes of `Fx65` in ascending order (spec/44_keys_timers_memory.md R160). -/
def State.setRegsFrom (s : State) (k : Nat) : List Byte → State
  | [] => s
  | b :: bs => (s.setReg (BitVec.ofNat 4 k) b).setRegsFrom (k + 1) bs

/-! ### The memory port (spec/20_memory.md R53, R54) -/

/-- The byte memory holds at an address. -/
def State.byte (s : State) (a : Nat) : Byte := readCell s.cfg s.mem a

/-- `MemRead(a, 1)`: raises MemoryBounds(a) outside 0..4095. -/
def State.memRead (s : State) (a : Nat) : Except Fault Byte :=
  if a < memSize then .ok (s.byte a) else .error (.memoryBounds a)

/-- `MemWrite(a, 1, b)`: raises MemoryBounds(a) outside 0..4095. -/
def State.memWrite (s : State) (a : Nat) (b : Byte) : Except Fault State :=
  if a < memSize then .ok { s with mem := writeCell s.cfg s.mem a b } else .error (.memoryBounds a)

/-- Reads `n` bytes from `a` up. The lowest offending address is met first, and a read changes nothing, so this is
R54's check of every address before any access. -/
def State.readBytes (s : State) (a : Nat) : Nat → Except Fault (List Byte)
  | 0 => .ok []
  | n + 1 =>
    match s.memRead a with
    | .error f => .error f
    | .ok b =>
      match s.readBytes (a + 1) n with
      | .error f => .error f
      | .ok bs => .ok (b :: bs)

/-- Writes bytes from `a` up. The lowest offending address is met first, and an error carries no state, so nothing is
written when any address offends (R54). -/
def State.writeBytes (s : State) (a : Nat) : List Byte → Except Fault State
  | [] => .ok s
  | b :: bs =>
    match s.memWrite a b with
    | .error f => .error f
    | .ok t => t.writeBytes (a + 1) bs

/-! ### The call stack (spec/10_state.md R26-R28) -/

/-- Whether the stack holds STACK_DEPTH entries (never when it is unbounded). -/
def State.stackFull (s : State) : Bool :=
  match s.cfg.stackDepth with
  | none => false
  | some d => s.stack.length == d

/-- `Push(v)` (R27). -/
def State.push (s : State) (v : Word) : Except Fault State :=
  if s.stackFull then .error .stackOverflow else .ok { s with stack := v :: s.stack }

/-- `Pop()` (R28): the removed value and the state without it. -/
def State.pop (s : State) : Except Fault (Word × State) :=
  match s.stack with
  | [] => .error .stackUnderflow
  | v :: rest => .ok (v, { s with stack := rest })

/-! ### The program counter (spec/40_cycle.md R96, spec/41_flow.md R109) -/

/-- `pc <- target`, for a PC-setting instruction. -/
def State.setPc (s : State) (target : Word) : State := { s with pc := target }

/-- The dispatcher's advance after an instruction that is not PC-setting (R96). -/
def State.advance (s : State) : State := s.setPc (s.pc + 2)

/-- The skip mechanism (R109): `pc + 4` when the condition holds, else the dispatcher's `pc + 2`. -/
def State.skipIf (s : State) (c : Bool) : State := s.setPc (if c then s.pc + 4 else s.pc + 2)

/-! ### Taking a fault (spec/60_exceptions.md R175, R176)

There is no return from a fault: only reset leaves the halted state (R178). -/

/-- Fault entry: the latch records the kind with its info and pc; nothing else changes and control goes nowhere. -/
def State.takeFault (s : State) (f : Fault) : State := { s with fault := some { kind := f, faultPc := s.pc } }

/-- The end of an execute step that began in `s`: its new state, or fault entry from `s` itself (spec/40_cycle.md
R99, R100: a fault commits nothing else). -/
def State.commit (s : State) : Except Fault State → State
  | .ok t => t
  | .error f => s.takeFault f

/-- The code of a fault on the fault output (R170). -/
def Fault.code : Fault → Nat
  | .programTooLarge _ => 1
  | .unknownOpcode _ => 2
  | .stackUnderflow => 3
  | .stackOverflow => 4
  | .memoryBounds _ => 5
  | .invalidKey _ => 6
  | .drawOutOfRange _ _ => 7

/-- The output `fault` the host reads (R187): the code, the kind with its info, and fault_pc. -/
def State.faultOutput (s : State) : Option (Nat × Fault × Word) :=
  s.fault.map fun r => (r.kind.code, r.kind, r.faultPc)

/-! ### Fetch (spec/20_memory.md R55) -/

/-- The instruction word at pc, or the MemoryBounds of its first byte outside memory. -/
def State.fetch (s : State) : Except Fault Word :=
  match s.memRead s.pc.toNat with
  | .error f => .error f
  | .ok hi =>
    match s.memRead (s.pc.toNat + 1) with
    | .error f => .error f
    | .ok lo => .ok (wordOfBytes hi lo)

/-- The state with the core able to fetch: not halted, not paused, and pc (when no word can be fetched there) at the
program base. For placing a word from outside the machine (log entry 6). -/
def State.readyToFetch (s : State) : State :=
  { s with fault := none, paused := false, pc := if s.pc.toNat + 1 < memSize then s.pc else pcReset }

/-- The state with a word stored at pc, its high byte first (R56). -/
def State.storeWordAtPc (s : State) (w : Word) : State :=
  { s with mem := writeCell s.cfg (writeCell s.cfg s.mem s.pc.toNat (hiByte w)) (s.pc.toNat + 1) (loByte w) }

end Sys2Proof.Machine
end

