-- ==== Sys2Proof/Machine/Operands.lean ====
section
/-! DEFINITION. The operand forms (spec/30_encoding.md R73, R74): zero extension of immediates and register values,
key numbers, font addresses, BCD digits, the cycle inputs, and which registers each instruction reads and writes. -/
namespace Sys2Proof.Machine

/-- `zext_16(addr)` (R73). -/
def zextAddr (a : Addr) : Word := a.setWidth 16

/-- `zext_16` of a register value (spec/00_scope.md R10). -/
def zextByte (b : Byte) : Word := b.setWidth 16

/-- `zext_8` of a key number (spec/40_cycle.md R98). -/
def zextKey (k : Key) : Byte := k.setWidth 8

/-- The key a register value names: InvalidKey above 15 (spec/44_keys_timers_memory.md R150). -/
def keyOfByte (b : Byte) : Except Fault Key :=
  if b.toNat > 15 then .error (.invalidKey b) else .ok (b.setWidth 4)

/-- The address of the font sprite of a digit: the whole byte times 5, exact in 16 bits (R157). -/
def fontAddress (b : Byte) : Word := zextByte b * 5

/-- The hundreds, tens and ones digits of a byte (R158). -/
def bcdDigits (b : Byte) : List Byte :=
  [BitVec.ofNat 8 (b.toNat / 100), BitVec.ofNat 8 (b.toNat / 10 % 10), BitVec.ofNat 8 (b.toNat % 10)]

/-! ### The cycle inputs (spec/40_cycle.md R90) -/

/-- This cycle's input record: the first pending one, or the free one (log entry 2). -/
def State.input (s : State) : CycleInput :=
  match s.inputs with
  | r :: _ => r
  | [] => Config.freeInput s.cycles

/-- `KeyPressed(k)` (spec/60_exceptions.md R184). -/
def State.keyPressed (s : State) (k : Key) : Bool := s.input.pressed[k.toNat]'k.isLt

/-- `RandByte()` (R185). -/
def State.randByte (s : State) : Byte := s.input.rand

/-- `key_event` (R186). -/
def State.keyEvent (s : State) : Option Key := s.input.keyEvent

end Sys2Proof.Machine

namespace Sys2Proof

/-- Whether an instruction reads a register when it executes (spec/10_state.md R22). -/
def Instr.reads (i : Instr) (j : RegIdx) : Bool :=
  match i with
  | .seImm x _ | .sneImm x _ | .addImm x _ | .shrReg x _ | .shlReg x _ => j == x
  | .skp x | .sknp x | .ldDTVx x | .ldSTVx x | .addI x | .ldF x | .ldB x => j == x
  | .ldReg _ y => j == y
  | .seReg x y | .sneReg x y | .orReg x y | .andReg x y | .xorReg x y => j == x || j == y
  | .addReg x y | .subReg x y | .subnReg x y | .drw x y _ => j == x || j == y
  | .jpV0 _ => j == 0#4
  | .storeRegs x => j.toNat ≤ x.toNat
  | .cls | .ret | .jp _ | .call _ | .ldImm _ _ | .ldI _ | .rnd _ _ | .ldVxDT _ | .ldVxK _ | .loadRegs _ => false

/-- Whether an instruction writes a register when it executes (R22). -/
def Instr.writes (i : Instr) (j : RegIdx) : Bool :=
  match i with
  | .ldImm x _ | .addImm x _ | .rnd x _ | .ldVxDT x => j == x
  | .ldReg x _ | .orReg x _ | .andReg x _ | .xorReg x _ => j == x
  | .addReg x _ | .subReg x _ | .shrReg x _ | .subnReg x _ | .shlReg x _ => j == x || j == Machine.vf
  | .drw _ _ _ => j == Machine.vf
  | .loadRegs x => j.toNat ≤ x.toNat
  | .cls | .ret | .jp _ | .call _ | .seImm _ _ | .sneImm _ _ | .seReg _ _ | .sneReg _ _ | .ldI _ | .jpV0 _ => false
  | .skp _ | .sknp _ | .ldVxK _ | .ldDTVx _ | .ldSTVx _ | .addI _ | .ldF _ | .ldB _ | .storeRegs _ => false

/-- Whether an instruction is PC-setting whenever it executes (spec/40_cycle.md R96). -/
def Instr.setsPc : Instr → Bool
  | .ret | .jp _ | .call _ | .jpV0 _ => true
  | _ => false

/-- Whether an instruction is one of the six skips, PC-setting when taken (R96, spec/41_flow.md R109). -/
def Instr.isSkip : Instr → Bool
  | .seImm _ _ | .sneImm _ _ | .seReg _ _ | .sneReg _ _ | .skp _ | .sknp _ => true
  | _ => false

end Sys2Proof
end

