-- ==== Sys2Proof/Machine/Flags.lean ====
section
/-! DEFINITION. The ALU with its flag output (spec/42_alu.md R120, R121, R133). -/
namespace Sys2Proof.Machine

/-- The operations of the ALU (R120). -/
inductive AluOp where
  | pass | addi | or | and | xor | add | sub | shr | subn | shl
  deriving DecidableEq, Repr

/-- The result column of R120: 8 bits, unsigned, modulo 256 (R133). -/
def aluResult (op : AluOp) (a b : Byte) : Byte :=
  match op with
  | .pass => b
  | .addi => a + b
  | .or => a ||| b
  | .and => a &&& b
  | .xor => a ^^^ b
  | .add => a + b
  | .sub => a - b
  | .shr => a >>> 1
  | .subn => b - a
  | .shl => a <<< 1

/-- 1 if the condition holds, else 0. -/
def bitFlag (c : Bool) : Byte := if c then 1#8 else 0#8

/-- The carry of `8xy4`: the exact sum exceeds 255 (R128). -/
def carryFlag (a b : Byte) : Byte := bitFlag (a.toNat + b.toNat > 255)

/-- The borrow of `8xy5` and the comparison flag of `8xy7`: `b > a`, unsigned (R129, R131). -/
def greaterFlag (a b : Byte) : Byte := bitFlag (b.toNat > a.toNat)

/-- The bit shifted out by `8xy6` (R130). -/
def lowBitFlag (a : Byte) : Byte := a &&& 0x01#8

/-- The bit shifted out by `8xyE`: 0x00 or 0x80, or 0 or 1 when SHIFT_FLAG_NORMALIZE is set (R132). -/
def highBitFlag (normalize : Bool) (a : Byte) : Byte := if normalize then (a >>> 7) &&& 0x01#8 else a &&& 0x80#8

/-- The flag column of R120; `none` for an operation without a flag. -/
def aluFlag (normalize : Bool) (op : AluOp) (a b : Byte) : Option Byte :=
  match op with
  | .pass | .addi | .or | .and | .xor => none
  | .add => some (carryFlag a b)
  | .sub | .subn => some (greaterFlag a b)
  | .shr => some (lowBitFlag a)
  | .shl => some (highBitFlag normalize a)

/-- Writes the flag register when the operation has a flag (R121). -/
def State.writeFlag (s : State) : Option Byte → State
  | none => s
  | some f => s.setReg vf f

/-- `V[x] <- op(V[x], nn)`. -/
def State.aluImm (s : State) (op : AluOp) (x : RegIdx) (nn : Byte) : State :=
  s.setReg x (aluResult op (s.reg x) nn)

/-- The register form (R121): the flag is computed and written first, then the result is computed from the registers
as they stand after that write, and written to `V[x]`. -/
def State.aluReg (s : State) (op : AluOp) (x y : RegIdx) : State :=
  let t := s.writeFlag (aluFlag s.cfg.shiftFlagNormalize op (s.reg x) (s.reg y))
  t.setReg x (aluResult op (t.reg x) (t.reg y))

/-- `8xy4` alone samples its operands before either write (R121, R128). -/
def State.addWithCarry (s : State) (x y : RegIdx) : State :=
  (s.writeFlag (aluFlag s.cfg.shiftFlagNormalize .add (s.reg x) (s.reg y))).setReg x
    (aluResult .add (s.reg x) (s.reg y))

end Sys2Proof.Machine
end

