-- ==== Sys2Proof/Machine/Alu.lean ====
section
/-! DEFINITION. The ALU and register instructions (spec/42_alu.md R122-R132). None can fault; each advances pc by 2. -/
namespace Sys2Proof.Machine

/-- `6xnn` (R122). -/
def execLdImm (x : RegIdx) (nn : Byte) (s : State) : Result := .next (s.aluImm .pass x nn).advance

/-- `7xnn` (R123): no flag. -/
def execAddImm (x : RegIdx) (nn : Byte) (s : State) : Result := .next (s.aluImm .addi x nn).advance

/-- `8xy0` (R124). -/
def execLdReg (x y : RegIdx) (s : State) : Result := .next (s.aluReg .pass x y).advance

/-- `8xy1` (R125). -/
def execOrReg (x y : RegIdx) (s : State) : Result := .next (s.aluReg .or x y).advance

/-- `8xy2` (R126). -/
def execAndReg (x y : RegIdx) (s : State) : Result := .next (s.aluReg .and x y).advance

/-- `8xy3` (R127). -/
def execXorReg (x y : RegIdx) (s : State) : Result := .next (s.aluReg .xor x y).advance

/-- `8xy4` (R128): the sum is sampled before either write. -/
def execAddReg (x y : RegIdx) (s : State) : Result := .next (s.addWithCarry x y).advance

/-- `8xy5` (R129). -/
def execSubReg (x y : RegIdx) (s : State) : Result := .next (s.aluReg .sub x y).advance

/-- `8xy6` (R130): `y` is decoded and not read, so the unused second operand is `V[x]`. -/
def execShrReg (x _y : RegIdx) (s : State) : Result := .next (s.aluReg .shr x x).advance

/-- `8xy7` (R131). -/
def execSubnReg (x y : RegIdx) (s : State) : Result := .next (s.aluReg .subn x y).advance

/-- `8xyE` (R132): `y` is decoded and not read, so the unused second operand is `V[x]`. -/
def execShlReg (x _y : RegIdx) (s : State) : Result := .next (s.aluReg .shl x x).advance

end Sys2Proof.Machine
end

