-- ==== Sys2Proof/Machine/Display.lean ====
section
/-! DEFINITION. The display frame buffer's requests (spec/60_exceptions.md R180-R182) and the drawing of a sprite
(spec/43_index_random_draw.md R143, R144). -/
namespace Sys2Proof.Machine

/-- The pixel in column `px`, row `py` (R180: `fb[py][px]`). -/
def State.pixel (s : State) (px : Fin 64) (py : Fin 32) : Bool := s.fb[py][px]

/-- A frame buffer with every pixel off (R181). -/
def blankDisplay : FrameBuffer := Vector.replicate 32 (Vector.replicate 64 false)

/-- `DisplayClear()` (R181). -/
def State.displayClear (s : State) : State := { s with fb := blankDisplay }

/-- The frame buffer after `DisplayToggle(px, py)` (R182). -/
def togglePixel (fb : FrameBuffer) (px : Fin 64) (py : Fin 32) : FrameBuffer :=
  fb.set py (fb[py].set px (!fb[py][px]))

/-- A bit of a sprite that is 1, by its column 0-7 and its row 0-14. -/
structure SpriteBit where
  col : Nat
  row : Nat
  deriving DecidableEq, Repr

/-- The set bits of one row, column 0 being bit 7 (R143). -/
def rowBits (row : Nat) (b : Byte) : List SpriteBit :=
  ((List.range 8).filter fun c => b.getLsbD (7 - c)).map fun c => { col := c, row := row }

/-- The set bits of the rows from `row` down, in row-then-column order (R143). -/
def spriteBits (row : Nat) : List Byte → List SpriteBit
  | [] => []
  | b :: bs => rowBits row b ++ spriteBits (row + 1) bs

/-- A coordinate as a display pixel, when it is one. -/
def onScreen (px py : Nat) : Option (Fin 64 × Fin 32) :=
  if h : px < 64 ∧ py < 32 then some (⟨px, h.1⟩, ⟨py, h.2⟩) else none

/-- `Place` (R144): the pixel a set bit toggles, or `none` when it is not visible. With DRAW_EDGE = Fault the draw has
checked before that every set bit is on the screen. -/
def place (e : DrawEdge) (cx cy : Nat) (b : SpriteBit) : Option (Fin 64 × Fin 32) :=
  match e with
  | .wrap => some (⟨(cx + b.col) % 64, Nat.mod_lt _ (by decide)⟩, ⟨(cy + b.row) % 32, Nat.mod_lt _ (by decide)⟩)
  | .clip => onScreen (cx + b.col) (cy + b.row)
  | .wrapStartClip => onScreen (cx % 64 + b.col) (cy % 32 + b.row)
  | .fault => onScreen (cx + b.col) (cy + b.row)

/-- The check of DRAW_EDGE = Fault before any toggle (R143): the first set bit outside the screen. -/
def checkDraw (e : DrawEdge) (cx cy : Nat) (bits : List SpriteBit) : Except Fault Unit :=
  match e with
  | .fault =>
    match bits.find? fun b => 64 ≤ cx + b.col || 32 ≤ cy + b.row with
    | some b => .error (.drawOutOfRange (cx + b.col) (cy + b.row))
    | none => .ok ()
  | .wrap | .clip | .wrapStartClip => .ok ()

/-- Toggles the visible pixels in order, keeping whether any toggle turned a pixel off (R143, R182). -/
def drawBits (e : DrawEdge) (cx cy : Nat) : List SpriteBit → FrameBuffer → Bool → FrameBuffer × Bool
  | [], fb, collided => (fb, collided)
  | b :: bs, fb, collided =>
    match place e cx cy b with
    | none => drawBits e cx cy bs fb collided
    | some (px, py) => drawBits e cx cy bs (togglePixel fb px py) (collided || fb[py][px])

/-- `Dxyn` before its PC advance (R143): the coordinates and the rows are read first, `VF` is written last. -/
def State.drawSprite (s : State) (x y : RegIdx) (n : Nibble) : Except Fault State :=
  let cx := (s.reg x).toNat
  let cy := (s.reg y).toNat
  match s.readBytes s.i.toNat n.toNat with
  | .error f => .error f
  | .ok rows =>
    match checkDraw s.cfg.drawEdge cx cy (spriteBits 0 rows) with
    | .error f => .error f
    | .ok () =>
      let r := drawBits s.cfg.drawEdge cx cy (spriteBits 0 rows) s.fb false
      .ok (State.setReg { s with fb := r.1 } vf (bitFlag r.2))

end Sys2Proof.Machine
end

