-- ==== Sys2Proof/Machine/Flow.lean ====
section
/-! DEFINITION. Display clear, control transfer and skips (spec/41_flow.md R105-R114). Each meaning is the execute
step with the PC advance of R96. -/
namespace Sys2Proof.Machine

/-- `00E0` (R105). -/
def execCls (s : State) : Result := .next s.displayClear.advance

/-- `00EE` (R106): `pc <- Pop()`. -/
def execRet (s : State) : Result :=
  .next (s.commit (s.pop.map fun p => p.2.setPc p.1))

/-- `1nnn` (R107): `pc <- addr`. -/
def execJp (addr : Addr) (s : State) : Result := .next (s.setPc (zextAddr addr))

/-- `2nnn` (R108): `Push(pc + 2); pc <- addr` (spec/90_conflicts.md C1). -/
def execCall (addr : Addr) (s : State) : Result :=
  .next (s.commit ((s.push (s.pc + 2)).map fun t => t.setPc (zextAddr addr)))

/-- `3xnn` (R110). -/
def execSeImm (x : RegIdx) (nn : Byte) (s : State) : Result := .next (s.skipIf (s.reg x == nn))

/-- `4xnn` (R111). -/
def execSneImm (x : RegIdx) (nn : Byte) (s : State) : Result := .next (s.skipIf (s.reg x != nn))

/-- `5xy0` (R112). -/
def execSeReg (x y : RegIdx) (s : State) : Result := .next (s.skipIf (s.reg x == s.reg y))

/-- `9xy0` (R113). -/
def execSneReg (x y : RegIdx) (s : State) : Result := .next (s.skipIf (s.reg x != s.reg y))

end Sys2Proof.Machine
end

