-- ==== Sys2Proof/Machine/IndexDraw.lean ====
section
/-! DEFINITION. Index load, computed jump, random, draw (spec/43_index_random_draw.md R140-R143). -/
namespace Sys2Proof.Machine

/-- `Annn` (R140). -/
def execLdI (addr : Addr) (s : State) : Result := .next (State.advance { s with i := zextAddr addr })

/-- `Bnnn` (R141): the offset register is always V0; the sum is 16-bit, not reduced modulo 4096. -/
def execJpV0 (addr : Addr) (s : State) : Result := .next (s.setPc (zextAddr addr + zextByte (s.reg 0#4)))

/-- `Cxnn` (R142). -/
def execRnd (x : RegIdx) (nn : Byte) (s : State) : Result := .next (s.setReg x (s.randByte &&& nn)).advance

/-- `Dxyn` (R143). -/
def execDrw (x y : RegIdx) (n : Nibble) (s : State) : Result :=
  .next (s.commit ((s.drawSprite x y n).map State.advance))

end Sys2Proof.Machine
end

