-- ==== Sys2Proof/Machine/KeysTimers.lean ====
section
/-! DEFINITION. Keys, timers, index arithmetic and memory blocks (spec/44_keys_timers_memory.md R150-R160). -/
namespace Sys2Proof.Machine

/-- `Ex9E` (R150): InvalidKey above 15, else skip if the key is pressed. -/
def execSkp (x : RegIdx) (s : State) : Result :=
  .next (s.commit ((keyOfByte (s.reg x)).map fun k => s.skipIf (s.keyPressed k)))

/-- `ExA1` (R151): InvalidKey above 15, else skip if the key is not pressed. -/
def execSknp (x : RegIdx) (s : State) : Result :=
  .next (s.commit ((keyOfByte (s.reg x)).map fun k => s.skipIf (!s.keyPressed k)))

/-- `Fx07` (R152): DT before this cycle's decrement. -/
def execLdVxDT (x : RegIdx) (s : State) : Result := .next (s.setReg x s.dt).advance

/-- `Fx0A` (R153): pause, and latch the register that will receive the key. -/
def execLdVxK (x : RegIdx) (s : State) : Result := .next (State.advance { s with paused := true, w := x })

/-- `Fx15` (R154). -/
def execLdDTVx (x : RegIdx) (s : State) : Result := .next (State.advance { s with dt := s.reg x })

/-- `Fx18` (R155). -/
def execLdSTVx (x : RegIdx) (s : State) : Result := .next (State.advance { s with st := s.reg x })

/-- `Fx1E` (R156): modulo 65536, no flag. -/
def execAddI (x : RegIdx) (s : State) : Result := .next (State.advance { s with i := s.i + zextByte (s.reg x) })

/-- `Fx29` (R157). -/
def execLdF (x : RegIdx) (s : State) : Result := .next (State.advance { s with i := fontAddress (s.reg x) })

/-- `Fx33` (R158): hundreds, tens, ones at I, I+1, I+2. -/
def execLdB (x : RegIdx) (s : State) : Result :=
  .next (s.commit ((s.writeBytes s.i.toNat (bcdDigits (s.reg x))).map State.advance))

/-- `Fx55` (R159): V[0..x] to memory from I; I unchanged. -/
def execStoreRegs (x : RegIdx) (s : State) : Result :=
  .next (s.commit ((s.writeBytes s.i.toNat (s.regBlock x)).map State.advance))

/-- `Fx65` (R160): V[0..x] from memory at I; I unchanged. -/
def execLoadRegs (x : RegIdx) (s : State) : Result :=
  .next (s.commit ((s.readBytes s.i.toNat (x.toNat + 1)).map fun bs => (s.setRegsFrom 0 bs).advance))

end Sys2Proof.Machine
end

