-- ==== Sys2Proof/Machine/Cycle.lean ====
section
/-! DEFINITION. One cycle of the core (spec/40_cycle.md R90-R101). -/
namespace Sys2Proof.Machine

/-- One timer's decrement toward zero (R97). -/
def countDown (t : Byte) : Byte := if t = 0#8 then 0#8 else t - 1#8

/-- The timer unit's update (R97). -/
def State.timerUpdate (s : State) : State := { s with dt := countDown s.dt, st := countDown s.st }

/-- The input record of this cycle is used up (R90; log entry 2). -/
def State.nextInput (s : State) : State := { s with inputs := s.inputs.tail, cycles := s.cycles + 1 }

/-- The end of a cycle that is not halted: the timer update, unless the cycle raised a fault (R97, R100). -/
def State.endCycle (s : State) : State := if s.fault.isSome then s else s.timerUpdate.nextInput

/-- The resume step of a paused cycle (R98). -/
def State.resume (s : State) : State :=
  match s.keyEvent with
  | none => s
  | some k => { s.setReg s.w (zextKey k) with paused := false }

/-- The end of the cycle of an executed instruction. -/
def finishCycle : Result → Result
  | .next t => .next t.endCycle
  | .fault f => .fault f
  | .refused r => .refused r

/-- Decode and execute the fetched word (R94, R95); an illegal word raises UnknownOpcode. -/
def runWord (w : Word) (s : State) : Result :=
  match decode w with
  | .ok i => finishCycle (exec i s)
  | .error _ => .next (s.takeFault (.unknownOpcode w))

/-- A cycle of a core that is neither halted nor paused: fetch, decode, execute, timer update (R93-R97). -/
def runCycle (s : State) : Result :=
  match s.fetch with
  | .ok w => runWord w s
  | .error f => .next (s.takeFault f)

/-- One cycle (R99): the halted check (R91), the pause check (R92), then an instruction. -/
def cycle (s : State) : Result :=
  if s.fault.isSome then .next s
  else if s.paused then .next s.resume.endCycle
  else runCycle s

end Sys2Proof.Machine
end

