-- ==== Sys2Proof/Machine/Step.lean ====
section
/-! DEFINITION. The step of the machine: one cycle. -/
namespace Sys2Proof.Machine

/-- One step is one cycle (spec/40_cycle.md R90, R99). -/
def step (s : State) : Host.Outcome State Fault Refusal := cycle s

/-- `s` with the instruction word `w` of the opcode table stored where the next step fetches (log entry 6). -/
def State.withFetchWord (s : State) (nbits w : Nat) : State := s.readyToFetch.storeWordAtPc (tableWord nbits w)

end Sys2Proof.Machine
end

