-- ==== Sys2Proof/Machine/Driver.lean ====
section
/-! DEFINITION. The host's Simulation Driver (spec/70_reset_and_hazards.md R209-R211), beside the core: no rule of the
core depends on it. Time is counted in a unit of the reader's choice as natural numbers (log entry 8). -/
namespace Sys2Proof.Machine

/-- The driver's state: the core, the accumulator of elapsed time, the length of one virtual tick in the same unit,
how many times `present()` was called, and whether the session has ended. -/
structure Driver where
  core : State
  acc : Nat
  tick : Nat
  presents : Nat
  closed : Bool
  deriving DecidableEq, Repr

/-- The driver at the start of a session, around a launched core: the accumulator is "initially 0" (R210), nothing was
presented and the session is open. -/
def Driver.start (core : State) (tick : Nat) : Driver :=
  { core := core, acc := 0, tick := tick, presents := 0, closed := false }

/-- "While the accumulator exceeds one virtual tick, invoke one cycle and subtract one tick's worth" (R210; exceeds is
strict). The loop ends at a fault, which ends the session (R187). The first argument bounds the cycles. -/
def driveCycles : Nat → Driver → Driver
  | 0, d => d
  | n + 1, d =>
    if d.core.fault.isSome then { d with closed := true }
    else if d.acc > d.tick then
      match step d.core with
      | .next s => driveCycles n { d with core := s, acc := d.acc - d.tick }
      | .fault _ | .refused _ => { d with closed := true }
    else d

/-- One iteration (R210): the close check, the elapsed time, the cycles, then one render pass unless a fault has ended
the session (R187). DESIGN CHOICE (log entry 8): R179 and R210 say only that the close signal is checked once per
iteration; here it is checked first, so an iteration with the signal adds no time, runs no cycle and does not present.
DESIGN CHOICE (log entry 8): an iteration in which a fault ends the session does not present either. With a tick of one unit or more an accumulator of `acc` units runs fewer than `acc` cycles. -/
def driveFrame (closeSignal : Bool) (elapsed : Nat) (d : Driver) : Driver :=
  if d.closed || closeSignal then { d with closed := true }
  else
    let e := driveCycles (d.acc + elapsed + 1) { d with acc := d.acc + elapsed }
    if e.closed then e else { e with presents := e.presents + 1 }

end Sys2Proof.Machine
end

