-- ==== Sys2Proof/Machine/Load.lean ====
section
/-! DEFINITION. The host's program load (spec/70_reset_and_hazards.md R201) and the launch state (R202). -/
namespace Sys2Proof.Machine

/-- `Load(bytes)` (R201): the bytes verbatim from 0x200, or ProgramTooLarge latched with nothing written. -/
def State.load (s : State) (bytes : List Byte) : State :=
  if progBase + bytes.length > memSize then s.takeFault (.programTooLarge bytes.length)
  else s.commit (s.writeBytes progBase bytes)

/-- The launch state (R202): reset, then one load. It is the only way a program enters the machine (R194; a load
during a session has no move in the model, log entry 7). -/
def State.launch (c : Config) (bytes : List Byte) : State := (State.resetWith c).load bytes

end Sys2Proof.Machine
end

