-- ==== Sys2Proof/Safety.lean ====
section
/-! DEFINITION. What counts as a safe run, and the invariant of the machine. -/
namespace Sys2Proof.Machine

/-- The halted state (spec/60_exceptions.md R176): after a fault. -/
def State.Halted (s : State) : Bool := s.fault.isSome

/-- The stack holds at most STACK_DEPTH entries (spec/10_state.md, CoreState; R26). -/
def State.StackBounded (s : State) : Prop := ∀ d, s.cfg.stackDepth = some d → s.stack.length ≤ d

/-- Every return address was pushed by a call that was fetched, so it is at most 0x1000 (spec/41_flow.md R108). -/
abbrev State.StackInRange (s : State) : Prop := ∀ a ∈ s.stack, a.toNat ≤ 0x1000

/-- The program counter is at most 0x10FE, the greatest target of `Bnnn` (spec/10_state.md R24). -/
abbrev State.PcInRange (s : State) : Prop := s.pc.toNat ≤ 0x10FE

/-- Memory keeps its canonical form. -/
abbrev State.MemCanonical (s : State) : Prop := Memory.wf s.cfg s.mem = true

/-- The invariant of the machine. -/
structure State.Inv (s : State) : Prop where
  memCanonical : s.MemCanonical
  stackBounded : s.StackBounded
  stackInRange : s.StackInRange
  pcInRange : s.PcInRange

/-- The instruction the next cycle executes, if it executes one (spec/40_cycle.md R91-R95). -/
def State.nextInstr (s : State) : Option Instr :=
  if s.Halted || s.paused then none
  else
    match s.fetch with
    | .error _ => none
    | .ok w =>
      match decode w with
      | .ok i => some i
      | .error _ => none

/-! ### Frames: what a step leaves unchanged -/

/-- The parts of the state that a frame speaks of. The last three are the model's own fields (log entries 2 and 3). -/
inductive Part where
  | regs | index | pc | stack | dt | st | paused | wait | fault | memory | display | inputs | cycles | cfg
  deriving DecidableEq, Repr

/-- A part reads the same in two states: memory byte by byte, the display pixel by pixel, the registers one by one. -/
def Part.Same (p : Part) (s t : State) : Prop :=
  match p with
  | .regs => ∀ j, t.reg j = s.reg j
  | .index => t.i = s.i
  | .pc => t.pc = s.pc
  | .stack => t.stack = s.stack
  | .dt => t.dt = s.dt
  | .st => t.st = s.st
  | .paused => t.paused = s.paused
  | .wait => t.w = s.w
  | .fault => t.fault = s.fault
  | .memory => ∀ a, t.byte a = s.byte a
  | .display => ∀ px py, t.pixel px py = s.pixel px py
  | .inputs => t.inputs = s.inputs
  | .cycles => t.cycles = s.cycles
  | .cfg => t.cfg = s.cfg

/-- Every part outside the listed ones is unchanged from `s` to `t`. -/
def KeepsAllBut (changed : List Part) (s t : State) : Prop := ∀ p, p ∉ changed → p.Same s t

/-- The end of a test run (spec/70_reset_and_hazards.md R212): a fault, or a self-jump `0x1000 | pc` about to be
fetched. It does not say that the core stops. -/
def State.runEnded (s : State) : Bool :=
  s.Halted || (!s.paused && match s.fetch with
    | .ok w => w == 0x1000#16 ||| s.pc
    | .error _ => false)

end Sys2Proof.Machine
end

