-- ==== Sys2Proof/Certificates/Slice0/Obligations.lean ====
section
/-! DEFINITION. The statements for the provers. -/
open Sys2Proof Sys2Proof.Machine

namespace Sys2Proof.Claims

/-- An instruction's encoding as a rule's "Encoding" line gives it: the word, its mask, and that the word decodes to
the instruction. -/
def EncodedAs (i : Instr) (w mask : Word) : Prop :=
  encode i = w ∧ decode w = .ok i ∧ i.row.mask = mask

/-- `op | x<<8 | nn`, as the rules write it. -/
def wordXNN (op : Word) (x : RegIdx) (nn : Byte) : Word := op ||| x.setWidth 16 <<< 8 ||| nn.setWidth 16

/-- `op | x<<8 | y<<4`, as the rules write it. -/
def wordXY (op : Word) (x y : RegIdx) : Word := op ||| x.setWidth 16 <<< 8 ||| y.setWidth 16 <<< 4

/-- `op | x<<8`, as the rules write it. -/
def wordX (op : Word) (x : RegIdx) : Word := op ||| x.setWidth 16 <<< 8

/-- `op | addr`, as the rules write it. -/
def wordA (op : Word) (addr : Addr) : Word := op ||| addr.setWidth 16

/-- A timer one cycle later: down by one while it is not zero. -/
def countedDown (t : Byte) : Byte := if t = 0#8 then 0#8 else t - 1#8

/-- `exec i s` completes by taking the fault `f`: the latch holds it with pc, and nothing else changes. -/
def TakesFault (i : Instr) (s : State) (f : Fault) : Prop :=
  ∃ t, exec i s = .next t ∧ t.fault = some { kind := f, faultPc := s.pc } ∧ KeepsAllBut [.fault] s t

/-- The step from `s` takes the fault `f`: the latch holds it with pc, and nothing else changes. -/
def StepTakesFault (s : State) (f : Fault) : Prop :=
  ∃ t, step s = .next t ∧ t.fault = some { kind := f, faultPc := s.pc } ∧ KeepsAllBut [.fault] s t

/-- The sprite's bit in row `r`, column `c` is set, column 0 being bit 7 of the byte at I + r. -/
def SpriteBitSet (s : State) (n : Nibble) (r c : Nat) : Prop :=
  r < n.toNat ∧ c < 8 ∧ (s.byte (s.i.toNat + r)).getLsbD (7 - c) = true

/-- The table of R144: the bit in row `r`, column `c` of a sprite drawn at `(cx, cy)` is sent to the pixel
`(px, py)`. A coordinate outside the screen equals that of no pixel. -/
def PlacedAt (e : DrawEdge) (cx cy r c : Nat) (px : Fin 64) (py : Fin 32) : Prop :=
  match e with
  | .wrap => px.val = (cx + c) % 64 ∧ py.val = (cy + r) % 32
  | .clip => px.val = cx + c ∧ py.val = cy + r
  | .wrapStartClip => px.val = cx % 64 + c ∧ py.val = cy % 32 + r
  | .fault => px.val = cx + c ∧ py.val = cy + r

/-- Some set bit of the sprite is sent to the pixel `(px, py)`. -/
def Draws (s : State) (x y : RegIdx) (n : Nibble) (px : Fin 64) (py : Fin 32) : Prop :=
  ∃ r c, SpriteBitSet s n r c ∧ PlacedAt s.cfg.drawEdge (s.reg x).toNat (s.reg y).toNat r c px py

/-- The sprite lies in memory (R54). -/
def SpriteInMemory (s : State) (n : Nibble) : Prop := n = 0#4 ∨ s.i.toNat + n.toNat ≤ 4096

/-- The sprite's set bits all lie on the screen; asked only with DRAW_EDGE = Fault (R143). -/
def SpriteOnScreen (s : State) (x y : RegIdx) (n : Nibble) : Prop :=
  ∀ r c, SpriteBitSet s n r c → (s.reg x).toNat + c < 64 ∧ (s.reg y).toNat + r < 32

/-- Nothing stops the draw: the sprite is in memory, and on the screen where DRAW_EDGE = Fault asks that. -/
def DrawRuns (s : State) (x y : RegIdx) (n : Nibble) : Prop :=
  SpriteInMemory s n ∧ (s.cfg.drawEdge = .fault → SpriteOnScreen s x y n)

/-- The instructions that may raise a fault of a kind when they execute (R170), with what the rule says of the
recorded value. -/
def FaultListed (s : State) (i : Instr) : Fault → Prop
  | .programTooLarge _ => False
  | .unknownOpcode _ => False
  | .stackUnderflow => i = .ret
  | .stackOverflow => ∃ addr, i = .call addr
  | .memoryBounds a => 4096 ≤ a ∧ a ≤ 0x1000E ∧
      ((∃ x y n, i = .drw x y n) ∨ (∃ x, i = .ldB x) ∨ (∃ x, i = .storeRegs x) ∨ ∃ x, i = .loadRegs x)
  | .invalidKey k => 16 ≤ k.toNat ∧ ∃ x, (i = .skp x ∨ i = .sknp x) ∧ s.reg x = k
  | .drawOutOfRange px py => s.cfg.drawEdge = .fault ∧ (64 ≤ px ∨ 32 ≤ py) ∧ ∃ x y n, i = .drw x y n

end Sys2Proof.Claims

open Sys2Proof.Claims

/-! ### Encoding -/

/-- The words of eight instructions written bit by bit from the encodings of R72 and R77, one of each of eight of the
sixteen families (0, 2, 5, 6, 8, D, E, F). -/
def Obligations.SpecWordsDecodeAsWritten : Prop :=
  decode 0b0000000011100000#16 = .ok .cls ∧
  decode 0b0010001100000000#16 = .ok (.call 0x300#12) ∧
  decode 0b0101000100100000#16 = .ok (.seReg 0x1#4 0x2#4) ∧
  decode 0b0110101000101011#16 = .ok (.ldImm 0xA#4 0x2B#8) ∧
  decode 0b1000000100101110#16 = .ok (.shlReg 0x1#4 0x2#4) ∧
  decode 0b1101000100100101#16 = .ok (.drw 0x1#4 0x2#4 0x5#4) ∧
  decode 0b1110001010100001#16 = .ok (.sknp 0x2#4) ∧
  decode 0b1111000101100101#16 = .ok (.loadRegs 0x1#4)

/-- Decoding the word of any well-formed instruction gives the instruction back, and so does decoding its bytes, which
leaves the bytes after them. -/
def Obligations.DecodeInvertsEncode : Prop :=
  ∀ (i : Instr) (rest : List Byte), i.WellFormed = true →
    decode (encode i) = .ok i ∧ decodeBytes (encodeBytes i ++ rest) = .ok (i, rest)

/-- A word that decodes to an instruction is the word the encoder gives it: every bit of a legal word is accounted
for, and no two words decode to one instruction. -/
def Obligations.EncodeInvertsDecode : Prop :=
  ∀ (w : Word) (i : Instr), decode w = .ok i → encode i = w

/-- Decoding and the masks of the opcode table agree (R75, R77): an instruction's word has its row's fixed bits; a
word with a row's fixed bits decodes to an instruction of that row; and no two rows select one word. -/
def Obligations.DecodeFollowsOpcodeTable : Prop :=
  (∀ w i, decode w = .ok i → i.row ∈ opcodeTable ∧ i.row.selects w = true) ∧
  (∀ w, ∀ r ∈ opcodeTable, r.selects w = true → ∃ i, decode w = .ok i ∧ i.row = r) ∧
  (∀ w, ∀ r ∈ opcodeTable, ∀ r' ∈ opcodeTable, r.selects w = true → r'.selects w = true → r = r')

/-- The illegal words are those of the six families of R79, and the decoder names the word it refuses. That fixed
bits are matched strictly is the spec's own decision D11. -/
def Obligations.IllegalWordsAreTheSixFamilies : Prop :=
  ∀ w : Word, decode w = .error (.illegal w) ↔
    (opField w = 0x0#4 ∧ w ≠ 0x00E0#16 ∧ w ≠ 0x00EE#16) ∨
    (opField w = 0x5#4 ∧ nField w ≠ 0#4) ∨
    (opField w = 0x8#4 ∧ nField w ∈ [0x8#4, 0x9#4, 0xA#4, 0xB#4, 0xC#4, 0xD#4, 0xF#4]) ∨
    (opField w = 0x9#4 ∧ nField w ≠ 0#4) ∨
    (opField w = 0xE#4 ∧ nnField w ∉ [0x9E#8, 0xA1#8]) ∨
    (opField w = 0xF#4 ∧ nnField w ∉ [0x07#8, 0x0A#8, 0x15#8, 0x18#8, 0x1E#8, 0x29#8, 0x33#8, 0x55#8, 0x65#8])

/-! ### The cycle -/

/-- When the core is neither halted nor paused and the two bytes at pc decode to `i`, the step is `exec i` at that
state, and then: if `exec` took no fault, both timers count down, the cycle's input record is used up, and nothing
else changes; if it took one, nothing is added. -/
def Obligations.StepRunsTheDecodedInstruction : Prop :=
  ∀ (s t : State) (i : Instr), s.fault = none → s.paused = false → s.pc.toNat + 1 < 4096 →
    decode (s.byte s.pc.toNat ++ s.byte (s.pc.toNat + 1)) = .ok i → exec i s = .next t →
    ∃ u, step s = .next u ∧
      (t.fault = none → u.dt = countedDown t.dt ∧ u.st = countedDown t.st ∧ u.inputs = t.inputs.tail ∧
        u.cycles = t.cycles + 1 ∧ KeepsAllBut [.dt, .st, .inputs, .cycles] t u) ∧
      (t.fault ≠ none → u = t)

/-- The word placed where the step fetches is the word it runs: from any state whose memory is canonical, even a halted
or a paused one, and with pc anywhere. -/
def Obligations.PlacedWordRunsNext : Prop :=
  ∀ (s t : State) (nbits w : Nat) (i : Instr), s.MemCanonical → decodeTableWord nbits w = some i →
    (s.withFetchWord nbits w).nextInstr = some i ∧
    (exec i (s.withFetchWord nbits w) = .next t → step (s.withFetchWord nbits w) = .next t.endCycle)

/-- A fetch that reaches outside memory takes MemoryBounds with the first address outside: pc itself, or pc + 1 when
pc is 0xFFF. Rests on the spec's own decisions D2 and D3 (no bounds error is named in its source); that the cycle
uses no input record is the model's (log entry 2). -/
def Obligations.FetchOutsideMemoryFaults : Prop :=
  ∀ s : State, s.fault = none → s.paused = false →
    (s.pc.toNat = 0xFFF → StepTakesFault s (.memoryBounds 0x1000)) ∧
    (0x1000 ≤ s.pc.toNat → StepTakesFault s (.memoryBounds s.pc.toNat))

/-- Executing an illegal word takes UnknownOpcode with that word, and nothing else changes. That nothing else changes
and that the core latches the fault are the spec's own decisions D3 and D14; that the cycle uses no input record is the
model's (log entry 2). -/
def Obligations.IllegalWordFaults : Prop :=
  ∀ (s : State) (w : Word), s.fault = none → s.paused = false → s.fetch = .ok w →
    (∀ i, decode w ≠ .ok i) → StepTakesFault s (.unknownOpcode w)

/-- A halted core stays as it is for any number of cycles: only reset leaves the halted state. Rests on the spec's own
decision D14; that a halted cycle uses no input record is the model's (log entry 2). -/
def Obligations.HaltedCoreNeverChanges : Prop :=
  ∀ (s : State) (n : Nat), s.Halted = true → Host.Core.run Sys2Proof.core n s = .next s

/-- A paused cycle fetches nothing. The timers count down; without a key event nothing else of the core changes; with
the event of key `k`, `V[W]` receives `k` and the pause ends. Rests on the spec's own decision D6; that the cycle uses
up the input record and counts is the model's (log entry 2). -/
def Obligations.PausedCycleWaitsForKey : Prop :=
  ∀ s : State, s.fault = none → s.paused = true →
    ∃ t, step s = .next t ∧ t.dt = countedDown s.dt ∧ t.st = countedDown s.st ∧
      t.inputs = s.inputs.tail ∧ t.cycles = s.cycles + 1 ∧
      (s.keyEvent = none → KeepsAllBut [.dt, .st, .inputs, .cycles] s t) ∧
      (∀ k, s.keyEvent = some k → t.paused = false ∧ t.reg s.w = k.setWidth 8 ∧
        (∀ j, j ≠ s.w → t.reg j = s.reg j) ∧ KeepsAllBut [.regs, .paused, .dt, .st, .inputs, .cycles] s t)

/-- The paused flag (R30): only `Fx0A` sets it, only the resume step clears it, and while it is set no instruction
executes: nothing changes but the timers, the inputs used up, and what the resume step writes. The resume step is the
spec's own decision D6. -/
def Obligations.PausedFlagSetAndCleared : Prop :=
  ∀ s t : State, s.fault = none → step s = .next t →
    (s.paused = false → t.paused = true → ∃ x, s.nextInstr = some (.ldVxK x)) ∧
    (∀ x, s.nextInstr = some (.ldVxK x) → t.paused = true) ∧
    (s.paused = true → t.paused = false → ∃ k, s.keyEvent = some k ∧ t.reg s.w = k.setWidth 8) ∧
    (s.paused = true → s.nextInstr = none ∧ t.dt = countedDown s.dt ∧ t.st = countedDown s.st ∧
      (∀ j, j ≠ s.w → t.reg j = s.reg j) ∧ KeepsAllBut [.regs, .paused, .dt, .st, .inputs, .cycles] s t)

/-- A cycle that raises a fault commits nothing but the latch, which records pc: every register, every byte, every
pixel, the stack and the timers keep their values. Rests on the spec's own decision D3; that a faulting cycle uses no
input record and does not count is the model's (log entry 2). -/
def Obligations.FaultingCycleCommitsNothing : Prop :=
  ∀ s t : State, s.fault = none → step s = .next t → t.fault ≠ none →
    KeepsAllBut [.fault] s t ∧ ∃ f, t.fault = some { kind := f, faultPc := s.pc }

/-- Both timers count down in every cycle that starts unhalted and raises no fault, executed or paused; a value
written by `Fx15` or `Fx18` counts down in the same cycle. Coupling the timers to the cycle is the spec's own decision
D25. -/
def Obligations.TimersCountEveryLiveCycle : Prop :=
  ∀ s t : State, s.fault = none → step s = .next t → t.fault = none →
    ((∀ x, s.nextInstr ≠ some (.ldDTVx x)) → t.dt = countedDown s.dt) ∧
    (∀ x, s.nextInstr = some (.ldDTVx x) → t.dt = countedDown (s.reg x)) ∧
    ((∀ x, s.nextInstr ≠ some (.ldSTVx x)) → t.st = countedDown s.st) ∧
    (∀ x, s.nextInstr = some (.ldSTVx x) → t.st = countedDown (s.reg x))

/-- A key event in a cycle whose core is not paused has no effect, also in the cycle that executes `Fx0A`: replacing
it in the cycle's input record changes nothing of a cycle that raises no fault. Rests on the spec's own decision D6. -/
def Obligations.KeyEventIgnoredUnlessPaused : Prop :=
  ∀ (s t : State) (r : CycleInput) (rest : List CycleInput) (k : Option Key),
    s.paused = false → s.inputs = r :: rest → step s = .next t → t.fault = none →
    step { s with inputs := { r with keyEvent := k } :: rest } = .next t

/-- Every step answers a next state: the machine has no stop outside its fault latch. And no step changes a parameter.
That faults are taken as next states is the model's reading (log entry 1). -/
def Obligations.EveryStepContinues : Prop :=
  ∀ s : State, ∃ t, step s = .next t ∧ t.cfg = s.cfg

/-! ### Whole-machine rules -/

/-- Every step keeps the invariant: canonical memory, at most STACK_DEPTH return addresses, each at most 0x1000, and
pc at most 0x10FE (so the 16-bit register never wraps). -/
def Obligations.StepKeepsInvariant : Prop :=
  ∀ s t : State, s.Inv → step s = .next t → t.Inv

/-- The reset state meets the invariant, whatever the parameters. -/
def Obligations.ResetMeetsInvariant : Prop :=
  State.reset.Inv ∧ ∀ c : Config, (State.resetWith c).Inv

/-- An instruction writes only the registers its row of R22 names. -/
def Obligations.OnlyListedRegistersWritten : Prop :=
  ∀ (i : Instr) (s t : State), exec i s = .next t → ∀ j, i.writes j = false → t.reg j = s.reg j

/-- An instruction's outcome does not depend on a register its row of R22 does not name: changing such a register
before or after the instruction is the same. -/
def Obligations.UnreadRegistersDoNotMatter : Prop :=
  ∀ (i : Instr) (s t : State) (j : RegIdx) (b : Byte), i.reads j = false → i.writes j = false →
    exec i s = .next t → exec i (s.setReg j b) = .next (t.setReg j b)

/-- The PC advance (R96): an instruction that raises no fault and is not PC-setting advances pc by 2; one of the six
skips advances it by 4 or by 2. -/
def Obligations.PcAdvancesUnlessSet : Prop :=
  ∀ (i : Instr) (s t : State), s.fault = none → exec i s = .next t → t.fault = none → i.setsPc = false →
    (i.isSkip = false → t.pc = s.pc + 2) ∧ (i.isSkip = true → t.pc = s.pc + 4 ∨ t.pc = s.pc + 2)

/-- Each special piece of state is written only by the instructions the rules of 10_state.md and 20_memory.md name:
`I` by Annn, Fx1E, Fx29; the stack by 2nnn, 00EE; DT by Fx15; ST by Fx18; the paused flag and W by Fx0A; memory by
Fx33, Fx55; the display by 00E0, Dxyn; the inputs and the parameters by none. The latch W is the spec's own decision D6
(log entry 11), and that Fx55 and Fx65 keep `I` its decision D31 (log entry 19); the inputs and the counter are the
model's (log entry 2), and so is the field of the parameters (log entry 3). -/
def Obligations.SpecialStateWrittenOnlyAsListed : Prop :=
  ∀ (i : Instr) (s t : State), exec i s = .next t →
    ((∀ a, i ≠ .ldI a) → (∀ x, i ≠ .addI x) → (∀ x, i ≠ .ldF x) → t.i = s.i) ∧
    ((∀ a, i ≠ .call a) → i ≠ .ret → t.stack = s.stack) ∧
    ((∀ x, i ≠ .ldDTVx x) → t.dt = s.dt) ∧
    ((∀ x, i ≠ .ldSTVx x) → t.st = s.st) ∧
    ((∀ x, i ≠ .ldVxK x) → t.paused = s.paused ∧ t.w = s.w) ∧
    ((∀ x, i ≠ .ldB x) → (∀ x, i ≠ .storeRegs x) → ∀ a, t.byte a = s.byte a) ∧
    (i ≠ .cls → (∀ x y n, i ≠ .drw x y n) → ∀ px py, t.pixel px py = s.pixel px py) ∧
    t.inputs = s.inputs ∧ t.cycles = s.cycles ∧ t.cfg = s.cfg

/-- Each fault kind is raised only by the instructions R170 names for it, with the value it records; no instruction
raises ProgramTooLarge or UnknownOpcode. The kinds StackOverflow, MemoryBounds, InvalidKey and DrawOutOfRange are the
spec's own decisions D5, D2, D7 and D8. -/
def Obligations.FaultKindsRaisedOnlyAsListed : Prop :=
  ∀ (i : Instr) (s t : State) (r : FaultRecord), s.fault = none → exec i s = .next t → t.fault = some r →
    r.faultPc = s.pc ∧ FaultListed s i r.kind

/-- The canonical form is canonical: two memories in it that read the same at every address are the same list. The
form is the model's (guide, Memory); the bytes are R50's. -/
def Obligations.CanonicalMemoryIsItsBytes : Prop :=
  ∀ (c : Config) (m m' : Memory), Memory.wf c m = true → Memory.wf c m' = true →
    (∀ a, readCell c m a = readCell c m' a) → m = m'

/-! ### Reset and load -/

/-- The reset values of R37 (the frame buffer's is R180): the font at 0, every other byte 0, every register 0,
pc 0x200. The values of W, of the latch and of the display are the spec's own decisions D6, D14 and D15; the empty
input list and the counter are the model's (log entry 2). -/
def Obligations.ResetValues : Prop :=
  ∀ c : Config,
    (∀ a (h : a < 80), (State.resetWith c).byte a = c.font[a]) ∧
    (∀ a, 80 ≤ a → (State.resetWith c).byte a = 0#8) ∧
    (∀ x, (State.resetWith c).reg x = 0#8) ∧
    (∀ px py, (State.resetWith c).pixel px py = false) ∧
    (State.resetWith c).i = 0#16 ∧ (State.resetWith c).pc = 0x200#16 ∧ (State.resetWith c).stack = [] ∧
    (State.resetWith c).dt = 0#8 ∧ (State.resetWith c).st = 0#8 ∧ (State.resetWith c).paused = false ∧
    (State.resetWith c).w = 0#4 ∧ (State.resetWith c).fault = none ∧ (State.resetWith c).inputs = [] ∧
    (State.resetWith c).cycles = 0 ∧ (State.resetWith c).cfg = c

/-- A program of at most 3584 bytes is placed verbatim from 0x200; everything else is as reset left it, and the launch
state meets the invariant. -/
def Obligations.LaunchPlacesProgram : Prop :=
  ∀ (c : Config) (bytes : List Byte), bytes.length ≤ 3584 →
    (∀ k (h : k < bytes.length), (State.launch c bytes).byte (0x200 + k) = bytes[k]) ∧
    (∀ a, a < 0x200 ∨ 0x200 + bytes.length ≤ a → (State.launch c bytes).byte a = (State.resetWith c).byte a) ∧
    KeepsAllBut [.memory] (State.resetWith c) (State.launch c bytes) ∧ (State.launch c bytes).Inv

/-- A longer program is not loaded: ProgramTooLarge is latched with its length and fault_pc 0x200, and nothing is
written. That the core is then halted is the spec's own decision D21. -/
def Obligations.TooLargeProgramWritesNothing : Prop :=
  ∀ (c : Config) (bytes : List Byte), 3584 < bytes.length →
    (State.launch c bytes).fault = some { kind := .programTooLarge bytes.length, faultPc := 0x200#16 } ∧
    KeepsAllBut [.fault] (State.resetWith c) (State.launch c bytes)

/-- A core that runs with no program loaded fetches 0x0000 at 0x200 and takes UnknownOpcode in its first cycle. The
spec's own decision D30; that the cycle uses no input record is the model's (log entry 2). -/
def Obligations.UnloadedCoreFaults : Prop :=
  ∀ c : Config, StepTakesFault (State.resetWith c) (.unknownOpcode 0x0000#16)

/-! ### Display clear, control transfer and skips -/

/-- `00E0` (R105). -/
def Obligations.ClsTurnsEveryPixelOff : Prop :=
  EncodedAs .cls 0x00E0#16 0xFFFF#16 ∧
  ∀ s : State, ∃ t, exec .cls s = .next t ∧ (∀ px py, t.pixel px py = false) ∧ t.pc = s.pc + 2 ∧
    KeepsAllBut [.display, .pc] s t

/-- `00EE`: the top of the stack goes to pc, whatever its value; an empty stack faults and nothing else changes. That
the stacked value needs no advance is the spec's resolution of its conflict C1; that a fault latches and changes
nothing else are its own decisions D3 and D14. -/
def Obligations.RetPopsReturnAddress : Prop :=
  EncodedAs .ret 0x00EE#16 0xFFFF#16 ∧
  (∀ (s : State) (a : Word) (rest : List Word), s.stack = a :: rest →
    ∃ t, exec .ret s = .next t ∧ t.pc = a ∧ t.stack = rest ∧ KeepsAllBut [.pc, .stack] s t) ∧
  (∀ s : State, s.stack = [] → TakesFault .ret s .stackUnderflow)

/-- `1nnn`: any address, odd ones and its own among them (that no alignment is checked is the spec's own decision
D12). -/
def Obligations.JpSetsPc : Prop :=
  ∀ addr : Addr, EncodedAs (.jp addr) (wordA 0x1000#16 addr) 0xF000#16 ∧
    ∀ s : State, ∃ t, exec (.jp addr) s = .next t ∧ t.pc = addr.setWidth 16 ∧ KeepsAllBut [.pc] s t

/-- `2nnn`: pc + 2 is pushed and pc is the target, while the stack holds fewer than STACK_DEPTH entries or is
unbounded; with exactly STACK_DEPTH entries it takes StackOverflow. The pushed value is the spec's resolution of its
conflict C1; the bound is its own decision D5. -/
def Obligations.CallPushesReturnAddress : Prop :=
  ∀ addr : Addr, EncodedAs (.call addr) (wordA 0x2000#16 addr) 0xF000#16 ∧
    ∀ s : State,
      (s.cfg.stackDepth ≠ some s.stack.length →
        ∃ t, exec (.call addr) s = .next t ∧ t.pc = addr.setWidth 16 ∧ t.stack = (s.pc + 2) :: s.stack ∧
          KeepsAllBut [.pc, .stack] s t) ∧
      (s.cfg.stackDepth = some s.stack.length → TakesFault (.call addr) s .stackOverflow)

/-- `3xnn`, `4xnn` (R110, R111): pc + 4 when the condition holds, else pc + 2, and nothing else. -/
def Obligations.SkipsOnImmediate : Prop :=
  ∀ (x : RegIdx) (nn : Byte),
    EncodedAs (.seImm x nn) (wordXNN 0x3000#16 x nn) 0xF000#16 ∧
    EncodedAs (.sneImm x nn) (wordXNN 0x4000#16 x nn) 0xF000#16 ∧
    ∀ s : State,
      (∃ t, exec (.seImm x nn) s = .next t ∧ t.pc = (if s.reg x = nn then s.pc + 4 else s.pc + 2) ∧
        KeepsAllBut [.pc] s t) ∧
      (∃ t, exec (.sneImm x nn) s = .next t ∧ t.pc = (if s.reg x = nn then s.pc + 2 else s.pc + 4) ∧
        KeepsAllBut [.pc] s t)

/-- `5xy0`, `9xy0` (R112, R113): pc + 4 when the condition holds, else pc + 2, and nothing else. A nonzero low nibble
is illegal, the spec's own decision D11. -/
def Obligations.SkipsOnRegisters : Prop :=
  (∀ w : Word, (opField w = 0x5#4 ∨ opField w = 0x9#4) → nField w ≠ 0#4 → decode w = .error (.illegal w)) ∧
  ∀ x y : RegIdx,
    EncodedAs (.seReg x y) (wordXY 0x5000#16 x y) 0xF00F#16 ∧
    EncodedAs (.sneReg x y) (wordXY 0x9000#16 x y) 0xF00F#16 ∧
    ∀ s : State,
      (∃ t, exec (.seReg x y) s = .next t ∧ t.pc = (if s.reg x = s.reg y then s.pc + 4 else s.pc + 2) ∧
        KeepsAllBut [.pc] s t) ∧
      (∃ t, exec (.sneReg x y) s = .next t ∧ t.pc = (if s.reg x = s.reg y then s.pc + 2 else s.pc + 4) ∧
        KeepsAllBut [.pc] s t)

/-! ### ALU and register instructions -/

/-- `6xnn`, `7xnn` (R122, R123): the immediate, or the sum modulo 256 with no flag. -/
def Obligations.ImmediateLoadAndAdd : Prop :=
  ∀ (x : RegIdx) (nn : Byte),
    EncodedAs (.ldImm x nn) (wordXNN 0x6000#16 x nn) 0xF000#16 ∧
    EncodedAs (.addImm x nn) (wordXNN 0x7000#16 x nn) 0xF000#16 ∧
    ∀ s : State,
      (∃ t, exec (.ldImm x nn) s = .next t ∧ t.reg x = nn ∧ (∀ j, j ≠ x → t.reg j = s.reg j) ∧ t.pc = s.pc + 2 ∧
        KeepsAllBut [.regs, .pc] s t) ∧
      (∃ t, exec (.addImm x nn) s = .next t ∧ (t.reg x).toNat = ((s.reg x).toNat + nn.toNat) % 256 ∧
        (∀ j, j ≠ x → t.reg j = s.reg j) ∧ t.pc = s.pc + 2 ∧ KeepsAllBut [.regs, .pc] s t)

/-- `8xy0` to `8xy3` (R124 to R127): the copy and the three bitwise operations, bit by bit; no flag. -/
def Obligations.CopyAndBitwise : Prop :=
  ∀ x y : RegIdx,
    EncodedAs (.ldReg x y) (wordXY 0x8000#16 x y) 0xF00F#16 ∧
    EncodedAs (.orReg x y) (wordXY 0x8001#16 x y) 0xF00F#16 ∧
    EncodedAs (.andReg x y) (wordXY 0x8002#16 x y) 0xF00F#16 ∧
    EncodedAs (.xorReg x y) (wordXY 0x8003#16 x y) 0xF00F#16 ∧
    ∀ s : State,
      (∃ t, exec (.ldReg x y) s = .next t ∧ t.reg x = s.reg y ∧
        (∀ j, j ≠ x → t.reg j = s.reg j) ∧ t.pc = s.pc + 2 ∧ KeepsAllBut [.regs, .pc] s t) ∧
      (∃ t, exec (.orReg x y) s = .next t ∧
        (∀ b, (t.reg x).getLsbD b = ((s.reg x).getLsbD b || (s.reg y).getLsbD b)) ∧
        (∀ j, j ≠ x → t.reg j = s.reg j) ∧ t.pc = s.pc + 2 ∧ KeepsAllBut [.regs, .pc] s t) ∧
      (∃ t, exec (.andReg x y) s = .next t ∧
        (∀ b, (t.reg x).getLsbD b = ((s.reg x).getLsbD b && (s.reg y).getLsbD b)) ∧
        (∀ j, j ≠ x → t.reg j = s.reg j) ∧ t.pc = s.pc + 2 ∧ KeepsAllBut [.regs, .pc] s t) ∧
      (∃ t, exec (.xorReg x y) s = .next t ∧
        (∀ b, (t.reg x).getLsbD b = ((s.reg x).getLsbD b ^^ (s.reg y).getLsbD b)) ∧
        (∀ j, j ≠ x → t.reg j = s.reg j) ∧ t.pc = s.pc + 2 ∧ KeepsAllBut [.regs, .pc] s t)

/-- `8xy4`: the sum of the old values modulo 256, and the carry in VF unless x is VF, where the sum overwrites it. What
happens when x or y is VF is the spec's own decision D9. -/
def Obligations.AddSetsCarry : Prop :=
  ∀ x y : RegIdx, EncodedAs (.addReg x y) (wordXY 0x8004#16 x y) 0xF00F#16 ∧
    ∀ s : State, ∃ t, exec (.addReg x y) s = .next t ∧
      (t.reg x).toNat = ((s.reg x).toNat + (s.reg y).toNat) % 256 ∧
      (x ≠ 0xF#4 → t.reg 0xF#4 = if (s.reg x).toNat + (s.reg y).toNat > 255 then 1#8 else 0#8) ∧
      (∀ j, j ≠ x → j ≠ 0xF#4 → t.reg j = s.reg j) ∧ t.pc = s.pc + 2 ∧ KeepsAllBut [.regs, .pc] s t

/-- `8xy5`: VF is 1 when a borrow occurred, written first; the result is then computed from the registers as they
stand. What happens when x or y is VF is the spec's own decision D9. -/
def Obligations.SubSetsBorrow : Prop :=
  ∀ x y : RegIdx, EncodedAs (.subReg x y) (wordXY 0x8005#16 x y) 0xF00F#16 ∧
    ∀ (s : State) (f : Byte), f = (if (s.reg y).toNat > (s.reg x).toNat then 1#8 else 0#8) →
      ∃ t, exec (.subReg x y) s = .next t ∧
        (x ≠ 0xF#4 → t.reg 0xF#4 = f) ∧
        (x ≠ 0xF#4 → y ≠ 0xF#4 → (t.reg x).toNat = ((s.reg x).toNat + 256 - (s.reg y).toNat) % 256) ∧
        (x ≠ 0xF#4 → y = 0xF#4 → (t.reg x).toNat = ((s.reg x).toNat + 256 - f.toNat) % 256) ∧
        (x = 0xF#4 → y ≠ 0xF#4 → (t.reg x).toNat = (f.toNat + 256 - (s.reg y).toNat) % 256) ∧
        (x = 0xF#4 → y = 0xF#4 → t.reg x = 0#8) ∧
        (∀ j, j ≠ x → j ≠ 0xF#4 → t.reg j = s.reg j) ∧ t.pc = s.pc + 2 ∧ KeepsAllBut [.regs, .pc] s t

/-- `8xy6`: the bit shifted out in VF, written first, and the shift right; y never matters. With x = VF the final VF
is 0, the spec's own decision D9. -/
def Obligations.ShrSetsBitShiftedOut : Prop :=
  ∀ x y : RegIdx, EncodedAs (.shrReg x y) (wordXY 0x8006#16 x y) 0xF00F#16 ∧
    ∀ s : State, (∀ y', exec (.shrReg x y') s = exec (.shrReg x y) s) ∧
      ∃ t, exec (.shrReg x y) s = .next t ∧
        (x ≠ 0xF#4 → (t.reg x).toNat = (s.reg x).toNat / 2 ∧ (t.reg 0xF#4).toNat = (s.reg x).toNat % 2) ∧
        (x = 0xF#4 → t.reg 0xF#4 = 0#8) ∧
        (∀ j, j ≠ x → j ≠ 0xF#4 → t.reg j = s.reg j) ∧ t.pc = s.pc + 2 ∧ KeepsAllBut [.regs, .pc] s t

/-- `8xy7`: VF is 1 when `V[y] > V[x]`, written first; the reverse difference is then computed from the registers as
they stand. The flag's sense is the spec's resolution of its conflict C5; what happens when x or y is VF is its own
decision D9. -/
def Obligations.SubnSetsComparison : Prop :=
  ∀ x y : RegIdx, EncodedAs (.subnReg x y) (wordXY 0x8007#16 x y) 0xF00F#16 ∧
    ∀ (s : State) (f : Byte), f = (if (s.reg y).toNat > (s.reg x).toNat then 1#8 else 0#8) →
      ∃ t, exec (.subnReg x y) s = .next t ∧
        (x ≠ 0xF#4 → t.reg 0xF#4 = f) ∧
        (x ≠ 0xF#4 → y ≠ 0xF#4 → (t.reg x).toNat = ((s.reg y).toNat + 256 - (s.reg x).toNat) % 256) ∧
        (x ≠ 0xF#4 → y = 0xF#4 → (t.reg x).toNat = (f.toNat + 256 - (s.reg x).toNat) % 256) ∧
        (x = 0xF#4 → y ≠ 0xF#4 → (t.reg x).toNat = ((s.reg y).toNat + 256 - f.toNat) % 256) ∧
        (x = 0xF#4 → y = 0xF#4 → t.reg x = 0#8) ∧
        (∀ j, j ≠ x → j ≠ 0xF#4 → t.reg j = s.reg j) ∧ t.pc = s.pc + 2 ∧ KeepsAllBut [.regs, .pc] s t

/-- `8xyE`: the high bit in VF as 0x00 or 0x80, or as 0 or 1 with SHIFT_FLAG_NORMALIZE, written first, and the shift
left; y never matters. With x = VF the result overwrites the flag: the spec's own decision D9; the parameter is its
decision D24. -/
def Obligations.ShlSetsBitShiftedOut : Prop :=
  ∀ x y : RegIdx, EncodedAs (.shlReg x y) (wordXY 0x800E#16 x y) 0xF00F#16 ∧
    ∀ s : State, (∀ y', exec (.shlReg x y') s = exec (.shlReg x y) s) ∧
      ∃ t, exec (.shlReg x y) s = .next t ∧
        (x ≠ 0xF#4 → (t.reg x).toNat = (s.reg x).toNat * 2 % 256) ∧
        (x ≠ 0xF#4 → s.cfg.shiftFlagNormalize = false →
          t.reg 0xF#4 = if (s.reg x).toNat ≥ 128 then 0x80#8 else 0x00#8) ∧
        (x ≠ 0xF#4 → s.cfg.shiftFlagNormalize = true → t.reg 0xF#4 = if (s.reg x).toNat ≥ 128 then 1#8 else 0#8) ∧
        (x = 0xF#4 → s.cfg.shiftFlagNormalize = false → t.reg 0xF#4 = 0#8) ∧
        (x = 0xF#4 → s.cfg.shiftFlagNormalize = true → t.reg 0xF#4 = if (s.reg x).toNat ≥ 128 then 2#8 else 0#8) ∧
        (∀ j, j ≠ x → j ≠ 0xF#4 → t.reg j = s.reg j) ∧ t.pc = s.pc + 2 ∧ KeepsAllBut [.regs, .pc] s t

/-! ### Index load, computed jump, random, draw -/

/-- `Annn` (R140). -/
def Obligations.LoadIndexImmediate : Prop :=
  ∀ addr : Addr, EncodedAs (.ldI addr) (wordA 0xA000#16 addr) 0xF000#16 ∧
    ∀ s : State, ∃ t, exec (.ldI addr) s = .next t ∧ t.i = addr.setWidth 16 ∧ t.pc = s.pc + 2 ∧
      KeepsAllBut [.index, .pc] s t

/-- `Bnnn`: the exact sum of the address and V0, whatever the x nibble. Not reducing it modulo 4096 is the spec's own
decision D13. -/
def Obligations.JumpAddsV0 : Prop :=
  ∀ addr : Addr, EncodedAs (.jpV0 addr) (wordA 0xB000#16 addr) 0xF000#16 ∧
    ∀ s : State, ∃ t, exec (.jpV0 addr) s = .next t ∧ t.pc.toNat = addr.toNat + (s.reg 0#4).toNat ∧
      KeepsAllBut [.pc] s t

/-- `Cxnn`: the cycle's random byte masked, for every byte the environment gives. Taking the byte as a free input is
the spec's own decision D19. -/
def Obligations.RandomByteIsMasked : Prop :=
  ∀ (x : RegIdx) (nn : Byte), EncodedAs (.rnd x nn) (wordXNN 0xC000#16 x nn) 0xF000#16 ∧
    ∀ s : State, ∃ t, exec (.rnd x nn) s = .next t ∧ t.reg x = s.input.rand &&& nn ∧
      (∀ r rest, s.inputs = r :: rest → s.input = r) ∧
      (∀ j, j ≠ x → t.reg j = s.reg j) ∧ t.pc = s.pc + 2 ∧ KeepsAllBut [.regs, .pc] s t

/-- `Dxyn`: for a sprite in memory, a pixel is toggled exactly when a set bit is sent to it, VF is 1 exactly when some
such pixel was on, and nothing else changes, for each of the four settings of DRAW_EDGE. The settings are the spec's
own decision D8. -/
def Obligations.DrawTogglesExactlyTheSprite : Prop :=
  ∀ (x y : RegIdx) (n : Nibble),
    EncodedAs (.drw x y n) (wordXY 0xD000#16 x y ||| n.setWidth 16) 0xF000#16 ∧
    ∀ s : State, DrawRuns s x y n →
      ∃ t, exec (.drw x y n) s = .next t ∧
        (∀ px py, Draws s x y n px py → t.pixel px py = !s.pixel px py) ∧
        (∀ px py, ¬ Draws s x y n px py → t.pixel px py = s.pixel px py) ∧
        ((∃ px py, Draws s x y n px py ∧ s.pixel px py = true) → t.reg 0xF#4 = 1#8) ∧
        ((¬ ∃ px py, Draws s x y n px py ∧ s.pixel px py = true) → t.reg 0xF#4 = 0#8) ∧
        (∀ j, j ≠ 0xF#4 → t.reg j = s.reg j) ∧ t.pc = s.pc + 2 ∧ KeepsAllBut [.regs, .pc, .display] s t

/-- Drawing one sprite twice at one place restores the display; if the first draw met no lit pixel and drew any, the
second reports a collision. The coordinates are not held in VF, which the first draw overwrites. -/
def Obligations.DrawingTwiceRestoresDisplay : Prop :=
  ∀ (x y : RegIdx) (n : Nibble) (s : State), x ≠ 0xF#4 → y ≠ 0xF#4 → DrawRuns s x y n →
    ∃ t u, exec (.drw x y n) s = .next t ∧ exec (.drw x y n) t = .next u ∧
      (∀ px py, u.pixel px py = s.pixel px py) ∧
      (t.reg 0xF#4 = 0#8 → (∃ px py, Draws s x y n px py) → u.reg 0xF#4 = 1#8) ∧
      ((¬ ∃ px py, Draws s x y n px py) → u.reg 0xF#4 = 0#8)

/-- `Dxyn` faults before any toggle: MemoryBounds with the lowest address of a row outside memory, before
DrawOutOfRange, which only DRAW_EDGE = Fault raises and which names the first set bit off the screen in row-then-column
order. The spec's own decisions D2, D8 and D18. -/
def Obligations.DrawFaultsBeforeToggling : Prop :=
  ∀ (x y : RegIdx) (n : Nibble) (s : State),
    (n ≠ 0#4 → 4096 ≤ s.i.toNat → TakesFault (.drw x y n) s (.memoryBounds s.i.toNat)) ∧
    (s.i.toNat < 4096 → 4096 < s.i.toNat + n.toNat → TakesFault (.drw x y n) s (.memoryBounds 4096)) ∧
    (∀ r c, SpriteInMemory s n → s.cfg.drawEdge = .fault → SpriteBitSet s n r c →
      (64 ≤ (s.reg x).toNat + c ∨ 32 ≤ (s.reg y).toNat + r) →
      (∀ r' c', SpriteBitSet s n r' c' → (r' < r ∨ (r' = r ∧ c' < c)) →
        (s.reg x).toNat + c' < 64 ∧ (s.reg y).toNat + r' < 32) →
      TakesFault (.drw x y n) s (.drawOutOfRange ((s.reg x).toNat + c) ((s.reg y).toNat + r)))

/-! ### Keys, timers, index arithmetic, memory blocks -/

/-- `Ex9E`, `ExA1`: the skip on the state of the key `V[x]` in this cycle's input, for a key number at most 15; above
it InvalidKey, the spec's own decision D7. -/
def Obligations.KeySkips : Prop :=
  ∀ x : RegIdx,
    EncodedAs (.skp x) (wordX 0xE09E#16 x) 0xF0FF#16 ∧ EncodedAs (.sknp x) (wordX 0xE0A1#16 x) 0xF0FF#16 ∧
    ∀ s : State,
      (∀ h : (s.reg x).toNat < 16,
        (∃ t, exec (.skp x) s = .next t ∧
          t.pc = (if s.input.pressed[(s.reg x).toNat] = true then s.pc + 4 else s.pc + 2) ∧ KeepsAllBut [.pc] s t) ∧
        (∃ t, exec (.sknp x) s = .next t ∧
          t.pc = (if s.input.pressed[(s.reg x).toNat] = true then s.pc + 2 else s.pc + 4) ∧ KeepsAllBut [.pc] s t)) ∧
      (16 ≤ (s.reg x).toNat →
        TakesFault (.skp x) s (.invalidKey (s.reg x)) ∧ TakesFault (.sknp x) s (.invalidKey (s.reg x)))

/-- `Fx07`: DT before the cycle's decrement, which then still applies. That the read comes before the decrement is the
spec's own inference from the order of steps 4 and 6; the decrement in the cycle is its own decision D25 (log entry 9). -/
def Obligations.ReadDelayTimer : Prop :=
  ∀ x : RegIdx, EncodedAs (.ldVxDT x) (wordX 0xF007#16 x) 0xF0FF#16 ∧
    (∀ s : State, ∃ t, exec (.ldVxDT x) s = .next t ∧ t.reg x = s.dt ∧ (∀ j, j ≠ x → t.reg j = s.reg j) ∧
      t.pc = s.pc + 2 ∧ KeepsAllBut [.regs, .pc] s t) ∧
    (∀ s : State, s.nextInstr = some (.ldVxDT x) →
      ∃ u, step s = .next u ∧ u.reg x = s.dt ∧ u.dt = countedDown s.dt)

/-- `Fx0A`: the paused flag is set, W holds x, and pc moves past the instruction. The latch W is the spec's own
decision D6. -/
def Obligations.KeyWaitPauses : Prop :=
  ∀ x : RegIdx, EncodedAs (.ldVxK x) (wordX 0xF00A#16 x) 0xF0FF#16 ∧
    ∀ s : State, ∃ t, exec (.ldVxK x) s = .next t ∧ t.paused = true ∧ t.w = x ∧ t.pc = s.pc + 2 ∧
      KeepsAllBut [.paused, .wait, .pc] s t

/-- `Fx15`, `Fx18`: the timer takes `V[x]`, and the cycle that writes it counts it down. That same-cycle decrement is
the spec's own inference from R97. -/
def Obligations.SetTimers : Prop :=
  ∀ x : RegIdx,
    EncodedAs (.ldDTVx x) (wordX 0xF015#16 x) 0xF0FF#16 ∧ EncodedAs (.ldSTVx x) (wordX 0xF018#16 x) 0xF0FF#16 ∧
    (∀ s : State, ∃ t, exec (.ldDTVx x) s = .next t ∧ t.dt = s.reg x ∧ t.pc = s.pc + 2 ∧
      KeepsAllBut [.dt, .pc] s t) ∧
    (∀ s : State, ∃ t, exec (.ldSTVx x) s = .next t ∧ t.st = s.reg x ∧ t.pc = s.pc + 2 ∧
      KeepsAllBut [.st, .pc] s t) ∧
    (∀ s : State, s.nextInstr = some (.ldDTVx x) → ∃ u, step s = .next u ∧ u.dt = countedDown (s.reg x)) ∧
    (∀ s : State, s.nextInstr = some (.ldSTVx x) → ∃ u, step s = .next u ∧ u.st = countedDown (s.reg x))

/-- `Fx1E`: the sum modulo 65536, no flag and no fault. The wrap at 16 bits is the spec's own decision D10. -/
def Obligations.AddToIndex : Prop :=
  ∀ x : RegIdx, EncodedAs (.addI x) (wordX 0xF01E#16 x) 0xF0FF#16 ∧
    ∀ s : State, ∃ t, exec (.addI x) s = .next t ∧ t.i.toNat = (s.i.toNat + (s.reg x).toNat) % 65536 ∧
      t.pc = s.pc + 2 ∧ KeepsAllBut [.index, .pc] s t

/-- `Fx29`: five times the whole byte. That the value is not masked to a digit is the spec's own inference from the
formula. -/
def Obligations.FontAddress : Prop :=
  ∀ x : RegIdx, EncodedAs (.ldF x) (wordX 0xF029#16 x) 0xF0FF#16 ∧
    ∀ s : State, ∃ t, exec (.ldF x) s = .next t ∧ t.i.toNat = (s.reg x).toNat * 5 ∧ t.pc = s.pc + 2 ∧
      KeepsAllBut [.index, .pc] s t

/-- `Fx33`: the three decimal digits, hundreds at I, when they lie in memory; else MemoryBounds with the lowest
offending address and nothing written, the spec's own decisions D2 and D3. -/
def Obligations.StoreDecimalDigits : Prop :=
  ∀ x : RegIdx, EncodedAs (.ldB x) (wordX 0xF033#16 x) 0xF0FF#16 ∧
    ∀ s : State,
      (s.MemCanonical → s.i.toNat + 2 < 4096 →
        ∃ t, exec (.ldB x) s = .next t ∧
          (t.byte s.i.toNat).toNat < 10 ∧ (t.byte (s.i.toNat + 1)).toNat < 10 ∧
          (t.byte (s.i.toNat + 2)).toNat < 10 ∧
          (t.byte s.i.toNat).toNat * 100 + (t.byte (s.i.toNat + 1)).toNat * 10 + (t.byte (s.i.toNat + 2)).toNat =
            (s.reg x).toNat ∧
          (∀ a, a < s.i.toNat ∨ s.i.toNat + 2 < a → t.byte a = s.byte a) ∧
          t.pc = s.pc + 2 ∧ KeepsAllBut [.memory, .pc] s t) ∧
      (4096 ≤ s.i.toNat + 2 → TakesFault (.ldB x) s (.memoryBounds (max s.i.toNat 4096)))

/-- `Fx55`: `V[0..x]` to memory from I, I unchanged; outside memory MemoryBounds with nothing written. The unchanged I
is the spec's own decision D31, the fault D2 and D3. -/
def Obligations.StoreRegisterBlock : Prop :=
  ∀ x : RegIdx, EncodedAs (.storeRegs x) (wordX 0xF055#16 x) 0xF0FF#16 ∧
    ∀ s : State,
      (s.MemCanonical → s.i.toNat + x.toNat < 4096 →
        ∃ t, exec (.storeRegs x) s = .next t ∧
          (∀ j : RegIdx, j.toNat ≤ x.toNat → t.byte (s.i.toNat + j.toNat) = s.reg j) ∧
          (∀ a, a < s.i.toNat ∨ s.i.toNat + x.toNat < a → t.byte a = s.byte a) ∧
          t.pc = s.pc + 2 ∧ KeepsAllBut [.memory, .pc] s t) ∧
      (4096 ≤ s.i.toNat + x.toNat → TakesFault (.storeRegs x) s (.memoryBounds (max s.i.toNat 4096)))

/-- `Fx65`: `V[0..x]` from memory at I, I and the registers above x unchanged; outside memory MemoryBounds with no
register written. The unchanged I is the spec's own decision D31, the fault D2 and D3. -/
def Obligations.LoadRegisterBlock : Prop :=
  ∀ x : RegIdx, EncodedAs (.loadRegs x) (wordX 0xF065#16 x) 0xF0FF#16 ∧
    ∀ s : State,
      (s.i.toNat + x.toNat < 4096 →
        ∃ t, exec (.loadRegs x) s = .next t ∧
          (∀ j : RegIdx, j.toNat ≤ x.toNat → t.reg j = s.byte (s.i.toNat + j.toNat)) ∧
          (∀ j : RegIdx, x.toNat < j.toNat → t.reg j = s.reg j) ∧
          t.pc = s.pc + 2 ∧ KeepsAllBut [.regs, .pc] s t) ∧
      (4096 ≤ s.i.toNat + x.toNat → TakesFault (.loadRegs x) s (.memoryBounds (max s.i.toNat 4096)))

/-- A store of `V[0..x]`, any change of the registers, and a load of `V[0..x]` at the same I restore them exactly.
Rests on the spec's own decision D31 (I unchanged). -/
def Obligations.StoreThenLoadRestoresRegisters : Prop :=
  ∀ (x : RegIdx) (s : State), s.MemCanonical → s.i.toNat + x.toNat < 4096 →
    ∃ t, exec (.storeRegs x) s = .next t ∧
      ∀ v : Vector Byte 16, ∃ u, exec (.loadRegs x) { t with v := v } = .next u ∧
        ∀ j : RegIdx, j.toNat ≤ x.toNat → u.reg j = s.reg j

/-- A word that `Fx55` stored is what the next fetch at its address reads, the byte at the lower address first: code
may modify itself with no fence. The spec's own inference in R62. -/
def Obligations.StoredWordIsFetched : Prop :=
  ∀ (x j : RegIdx) (s : State), s.MemCanonical → j.toNat < x.toNat → s.i.toNat + x.toNat < 4096 →
    ∃ t, exec (.storeRegs x) s = .next t ∧
      ∀ p : Word, p.toNat = s.i.toNat + j.toNat → (t.setPc p).fetch = .ok (s.reg j ++ s.reg (j + 1#4))

/-! ### The driver -/

/-- One iteration of the driver that ends with no fault runs as many cycles as there are whole ticks to subtract while
the accumulator strictly exceeds one. The driver is host behaviour; the strict comparison is the spec's own decision
D28; counting time in natural numbers is the model's (log entry 8). -/
def Obligations.DriverRunsWholeTicks : Prop :=
  ∀ (d : Driver) (elapsed : Nat), d.closed = false → 0 < d.tick → (driveFrame false elapsed d).closed = false →
    (driveFrame false elapsed d).acc ≤ d.tick ∧
    d.core.cycles ≤ (driveFrame false elapsed d).core.cycles ∧
    d.acc + elapsed = (driveFrame false elapsed d).acc +
      d.tick * ((driveFrame false elapsed d).core.cycles - d.core.cycles) ∧
    (d.core.cycles < (driveFrame false elapsed d).core.cycles → 0 < (driveFrame false elapsed d).acc) ∧
    (driveFrame false elapsed d).presents = d.presents + 1
end

