-- ==== Sys2Proof/Laws/Decode.lean ====
section
/-! SUPPORT. The words of R72 as numbers, the field cutters of R71 over them, and the word of two bytes. -/
namespace Sys2Proof

variable (op x y n : Nibble) (nn : Byte) (addr : Addr) (w : Word)

theorem toNat_append_eq {k l : Nat} (a : BitVec k) (b : BitVec l) : (a ++ b).toNat = a.toNat * 2 ^ l + b.toNat := by
  rw [BitVec.toNat_append, ← Nat.shiftLeft_add_eq_or_of_lt b.isLt, Nat.shiftLeft_eq]

theorem encodeA_toNat : (encodeA op addr).toNat = op.toNat * 4096 + addr.toNat := toNat_append_eq op addr

theorem encodeXNN_toNat : (encodeXNN op x nn).toNat = op.toNat * 4096 + x.toNat * 256 + nn.toNat := by
  show BitVec.toNat (w := 4 + 4 + 8) (op ++ x ++ nn) = _
  rw [toNat_append_eq, toNat_append_eq]
  ring

theorem encodeXYN_toNat :
    (encodeXYN op x y n).toNat = op.toNat * 4096 + x.toNat * 256 + y.toNat * 16 + n.toNat := by
  show BitVec.toNat (w := 4 + 4 + 4 + 4) (op ++ x ++ y ++ n) = _
  rw [toNat_append_eq, toNat_append_eq, toNat_append_eq]
  ring

theorem opField_toNat : (opField w).toNat = w.toNat / 4096 := by
  have := w.isLt
  simp only [opField, BitVec.extractLsb'_toNat, Nat.shiftRight_eq_div_pow]
  omega

theorem xField_toNat : (xField w).toNat = w.toNat / 256 % 16 := by
  simp [xField, BitVec.extractLsb'_toNat, Nat.shiftRight_eq_div_pow]

theorem yField_toNat : (yField w).toNat = w.toNat / 16 % 16 := by
  simp [yField, BitVec.extractLsb'_toNat, Nat.shiftRight_eq_div_pow]

theorem nField_toNat : (nField w).toNat = w.toNat % 16 := by simp [nField, BitVec.extractLsb'_toNat]

theorem nnField_toNat : (nnField w).toNat = w.toNat % 256 := by simp [nnField, BitVec.extractLsb'_toNat]

theorem addrField_toNat : (addrField w).toNat = w.toNat % 4096 := by simp [addrField, BitVec.extractLsb'_toNat]

@[simp] theorem opField_encodeA : opField (encodeA op addr) = op := by
  apply BitVec.eq_of_toNat_eq
  have := addr.isLt
  rw [opField_toNat, encodeA_toNat]
  omega

@[simp] theorem addrField_encodeA : addrField (encodeA op addr) = addr := by
  apply BitVec.eq_of_toNat_eq
  have := addr.isLt
  rw [addrField_toNat, encodeA_toNat]
  omega

@[simp] theorem opField_encodeXNN : opField (encodeXNN op x nn) = op := by
  apply BitVec.eq_of_toNat_eq
  have := x.isLt
  have := nn.isLt
  rw [opField_toNat, encodeXNN_toNat]
  omega

@[simp] theorem xField_encodeXNN : xField (encodeXNN op x nn) = x := by
  apply BitVec.eq_of_toNat_eq
  have := x.isLt
  have := nn.isLt
  rw [xField_toNat, encodeXNN_toNat]
  omega

@[simp] theorem nnField_encodeXNN : nnField (encodeXNN op x nn) = nn := by
  apply BitVec.eq_of_toNat_eq
  have := nn.isLt
  rw [nnField_toNat, encodeXNN_toNat]
  omega

@[simp] theorem opField_encodeXYN : opField (encodeXYN op x y n) = op := by
  apply BitVec.eq_of_toNat_eq
  have := x.isLt
  have := y.isLt
  have := n.isLt
  rw [opField_toNat, encodeXYN_toNat]
  omega

@[simp] theorem xField_encodeXYN : xField (encodeXYN op x y n) = x := by
  apply BitVec.eq_of_toNat_eq
  have := x.isLt
  have := y.isLt
  have := n.isLt
  rw [xField_toNat, encodeXYN_toNat]
  omega

@[simp] theorem yField_encodeXYN : yField (encodeXYN op x y n) = y := by
  apply BitVec.eq_of_toNat_eq
  have := y.isLt
  have := n.isLt
  rw [yField_toNat, encodeXYN_toNat]
  omega

@[simp] theorem nField_encodeXYN : nField (encodeXYN op x y n) = n := by
  apply BitVec.eq_of_toNat_eq
  have := n.isLt
  rw [nField_toNat, encodeXYN_toNat]
  omega

/-- A word is its two bytes, the high one first (R56). -/
@[simp] theorem wordOfBytes_hiByte_loByte : wordOfBytes (hiByte w) (loByte w) = w := by
  apply BitVec.eq_of_toNat_eq
  have h1 : (hiByte w).toNat = w.toNat / 256 := by
    have := w.isLt
    simp only [hiByte, BitVec.extractLsb'_toNat, Nat.shiftRight_eq_div_pow]
    omega
  have h2 : (loByte w).toNat = w.toNat % 256 := by simp [loByte, BitVec.extractLsb'_toNat]
  have h3 : (wordOfBytes (hiByte w) (loByte w)).toNat = _ := toNat_append_eq (hiByte w) (loByte w)
  omega

end Sys2Proof
end

