-- ==== Sys2Proof/Laws/Memory.lean ====
section
/-! SUPPORT. The laws of memory: what a write does to each byte, and that it keeps the canonical form. -/
namespace Sys2Proof.Machine

variable {c : Config} {m : Memory} {a a' lo lo' : Nat} {b : Byte}

@[simp] theorem readCell_nil : readCell c [] a = resetByte c a := rfl

theorem readCell_consCell_other (h : a' ≠ a) : readCell c (consCell c a b m) a' = readCell c m a' := by
  unfold consCell
  split
  · rfl
  · simp [readCell, h]

/-- A write leaves every other byte alone, canonical or not. -/
theorem readCell_writeCell_other (h : a' ≠ a) : readCell c (writeCell c m a b) a' = readCell c m a' := by
  induction m with
  | nil => exact readCell_consCell_other h
  | cons p rest ih =>
    obtain ⟨k, v⟩ := p
    simp only [writeCell]
    split
    · exact readCell_consCell_other h
    · split
      · rename_i hk
        rw [readCell_consCell_other h]
        simp [readCell, hk ▸ h]
      · simp [readCell, ih]

theorem memWfFrom_cons {k : Nat} {v : Byte} :
    memWfFrom c lo ((k, v) :: m) = true ↔
      lo ≤ k ∧ k < memSize ∧ v ≠ resetByte c k ∧ memWfFrom c (k + 1) m = true := by
  simp [memWfFrom, and_assoc]

theorem memWfFrom_mono (hl : lo ≤ lo') (h : memWfFrom c lo' m = true) : memWfFrom c lo m = true := by
  cases m with
  | nil => rfl
  | cons p rest =>
    obtain ⟨k, v⟩ := p
    rw [memWfFrom_cons] at h ⊢
    exact ⟨by omega, h.2⟩

/-- Below the first listed address a canonical memory reads as reset left it. -/
theorem readCell_of_lt (h : memWfFrom c lo m = true) (ha : a < lo) : readCell c m a = resetByte c a := by
  induction m generalizing lo with
  | nil => rfl
  | cons p rest ih =>
    obtain ⟨k, v⟩ := p
    obtain ⟨h1, -, -, h4⟩ := memWfFrom_cons.mp h
    rw [readCell, if_neg (by omega)]
    exact ih h4 (by omega)

theorem readCell_consCell_same (h : memWfFrom c (a + 1) m = true) : readCell c (consCell c a b m) a = b := by
  unfold consCell
  split
  · rename_i hb
    rw [readCell_of_lt h (by omega), hb]
  · simp [readCell]

theorem readCell_writeCell_from (h : memWfFrom c lo m = true) : readCell c (writeCell c m a b) a = b := by
  induction m generalizing lo with
  | nil => exact readCell_consCell_same rfl
  | cons p rest ih =>
    obtain ⟨k, v⟩ := p
    obtain ⟨h1, h2, h3, h4⟩ := memWfFrom_cons.mp h
    simp only [writeCell]
    split
    · rename_i hlt
      exact readCell_consCell_same (memWfFrom_cons.mpr ⟨by omega, h2, h3, h4⟩)
    · split
      · rename_i hk
        subst hk
        exact readCell_consCell_same h4
      · rename_i hk
        rw [readCell, if_neg hk]
        exact ih h4

/-- A canonical memory reads at `a` what was written there. -/
theorem readCell_writeCell_same (h : Memory.wf c m = true) : readCell c (writeCell c m a b) a = b :=
  readCell_writeCell_from h

theorem memWfFrom_consCell (hl : lo ≤ a) (ha : a < memSize) (h : memWfFrom c (a + 1) m = true) :
    memWfFrom c lo (consCell c a b m) = true := by
  unfold consCell
  split
  · exact memWfFrom_mono (by omega) h
  · rename_i hb
    exact memWfFrom_cons.mpr ⟨hl, ha, hb, h⟩

theorem memWfFrom_writeCell (hl : lo ≤ a) (ha : a < memSize) (h : memWfFrom c lo m = true) :
    memWfFrom c lo (writeCell c m a b) = true := by
  induction m generalizing lo with
  | nil => exact memWfFrom_consCell hl ha rfl
  | cons p rest ih =>
    obtain ⟨k, v⟩ := p
    obtain ⟨h1, h2, h3, h4⟩ := memWfFrom_cons.mp h
    simp only [writeCell]
    split
    · rename_i hlt
      exact memWfFrom_consCell hl ha (memWfFrom_cons.mpr ⟨by omega, h2, h3, h4⟩)
    · split
      · rename_i hk
        subst hk
        exact memWfFrom_consCell hl ha h4
      · exact memWfFrom_cons.mpr ⟨h1, h2, h3, ih (by omega) h4⟩

/-- A write inside memory keeps the canonical form. -/
theorem wf_writeCell (ha : a < memSize) (h : Memory.wf c m = true) : Memory.wf c (writeCell c m a b) = true :=
  memWfFrom_writeCell (Nat.zero_le a) ha h

@[simp] theorem wf_nil : Memory.wf c [] = true := rfl

end Sys2Proof.Machine
end

