-- ==== Sys2Proof/Laws/State.lean ====
section
/-! SUPPORT. One lemma for each field of State and each update of it, true by rfl. -/
namespace Sys2Proof.Machine

variable (s : State)

/-! ### setReg -/

@[simp] theorem setReg_mem (x : RegIdx) (b : Byte) : (s.setReg x b).mem = s.mem := rfl
@[simp] theorem setReg_v (x : RegIdx) (b : Byte) : (s.setReg x b).v = s.v.set x.toNat b x.isLt := rfl
@[simp] theorem setReg_i (x : RegIdx) (b : Byte) : (s.setReg x b).i = s.i := rfl
@[simp] theorem setReg_pc (x : RegIdx) (b : Byte) : (s.setReg x b).pc = s.pc := rfl
@[simp] theorem setReg_stack (x : RegIdx) (b : Byte) : (s.setReg x b).stack = s.stack := rfl
@[simp] theorem setReg_dt (x : RegIdx) (b : Byte) : (s.setReg x b).dt = s.dt := rfl
@[simp] theorem setReg_st (x : RegIdx) (b : Byte) : (s.setReg x b).st = s.st := rfl
@[simp] theorem setReg_paused (x : RegIdx) (b : Byte) : (s.setReg x b).paused = s.paused := rfl
@[simp] theorem setReg_w (x : RegIdx) (b : Byte) : (s.setReg x b).w = s.w := rfl
@[simp] theorem setReg_fault (x : RegIdx) (b : Byte) : (s.setReg x b).fault = s.fault := rfl
@[simp] theorem setReg_fb (x : RegIdx) (b : Byte) : (s.setReg x b).fb = s.fb := rfl
@[simp] theorem setReg_inputs (x : RegIdx) (b : Byte) : (s.setReg x b).inputs = s.inputs := rfl
@[simp] theorem setReg_cycles (x : RegIdx) (b : Byte) : (s.setReg x b).cycles = s.cycles := rfl
@[simp] theorem setReg_cfg (x : RegIdx) (b : Byte) : (s.setReg x b).cfg = s.cfg := rfl

/-! ### setPc -/

@[simp] theorem setPc_mem (p : Word) : (s.setPc p).mem = s.mem := rfl
@[simp] theorem setPc_v (p : Word) : (s.setPc p).v = s.v := rfl
@[simp] theorem setPc_i (p : Word) : (s.setPc p).i = s.i := rfl
@[simp] theorem setPc_pc (p : Word) : (s.setPc p).pc = p := rfl
@[simp] theorem setPc_stack (p : Word) : (s.setPc p).stack = s.stack := rfl
@[simp] theorem setPc_dt (p : Word) : (s.setPc p).dt = s.dt := rfl
@[simp] theorem setPc_st (p : Word) : (s.setPc p).st = s.st := rfl
@[simp] theorem setPc_paused (p : Word) : (s.setPc p).paused = s.paused := rfl
@[simp] theorem setPc_w (p : Word) : (s.setPc p).w = s.w := rfl
@[simp] theorem setPc_fault (p : Word) : (s.setPc p).fault = s.fault := rfl
@[simp] theorem setPc_fb (p : Word) : (s.setPc p).fb = s.fb := rfl
@[simp] theorem setPc_inputs (p : Word) : (s.setPc p).inputs = s.inputs := rfl
@[simp] theorem setPc_cycles (p : Word) : (s.setPc p).cycles = s.cycles := rfl
@[simp] theorem setPc_cfg (p : Word) : (s.setPc p).cfg = s.cfg := rfl

/-! ### advance -/

@[simp] theorem advance_mem : (s.advance).mem = s.mem := rfl
@[simp] theorem advance_v : (s.advance).v = s.v := rfl
@[simp] theorem advance_i : (s.advance).i = s.i := rfl
@[simp] theorem advance_pc : (s.advance).pc = s.pc + 2 := rfl
@[simp] theorem advance_stack : (s.advance).stack = s.stack := rfl
@[simp] theorem advance_dt : (s.advance).dt = s.dt := rfl
@[simp] theorem advance_st : (s.advance).st = s.st := rfl
@[simp] theorem advance_paused : (s.advance).paused = s.paused := rfl
@[simp] theorem advance_w : (s.advance).w = s.w := rfl
@[simp] theorem advance_fault : (s.advance).fault = s.fault := rfl
@[simp] theorem advance_fb : (s.advance).fb = s.fb := rfl
@[simp] theorem advance_inputs : (s.advance).inputs = s.inputs := rfl
@[simp] theorem advance_cycles : (s.advance).cycles = s.cycles := rfl
@[simp] theorem advance_cfg : (s.advance).cfg = s.cfg := rfl

/-! ### skipIf -/

@[simp] theorem skipIf_mem (c : Bool) : (s.skipIf c).mem = s.mem := rfl
@[simp] theorem skipIf_v (c : Bool) : (s.skipIf c).v = s.v := rfl
@[simp] theorem skipIf_i (c : Bool) : (s.skipIf c).i = s.i := rfl
@[simp] theorem skipIf_pc (c : Bool) : (s.skipIf c).pc = if c then s.pc + 4 else s.pc + 2 := rfl
@[simp] theorem skipIf_stack (c : Bool) : (s.skipIf c).stack = s.stack := rfl
@[simp] theorem skipIf_dt (c : Bool) : (s.skipIf c).dt = s.dt := rfl
@[simp] theorem skipIf_st (c : Bool) : (s.skipIf c).st = s.st := rfl
@[simp] theorem skipIf_paused (c : Bool) : (s.skipIf c).paused = s.paused := rfl
@[simp] theorem skipIf_w (c : Bool) : (s.skipIf c).w = s.w := rfl
@[simp] theorem skipIf_fault (c : Bool) : (s.skipIf c).fault = s.fault := rfl
@[simp] theorem skipIf_fb (c : Bool) : (s.skipIf c).fb = s.fb := rfl
@[simp] theorem skipIf_inputs (c : Bool) : (s.skipIf c).inputs = s.inputs := rfl
@[simp] theorem skipIf_cycles (c : Bool) : (s.skipIf c).cycles = s.cycles := rfl
@[simp] theorem skipIf_cfg (c : Bool) : (s.skipIf c).cfg = s.cfg := rfl

/-! ### takeFault -/

@[simp] theorem takeFault_mem (f : Fault) : (s.takeFault f).mem = s.mem := rfl
@[simp] theorem takeFault_v (f : Fault) : (s.takeFault f).v = s.v := rfl
@[simp] theorem takeFault_i (f : Fault) : (s.takeFault f).i = s.i := rfl
@[simp] theorem takeFault_pc (f : Fault) : (s.takeFault f).pc = s.pc := rfl
@[simp] theorem takeFault_stack (f : Fault) : (s.takeFault f).stack = s.stack := rfl
@[simp] theorem takeFault_dt (f : Fault) : (s.takeFault f).dt = s.dt := rfl
@[simp] theorem takeFault_st (f : Fault) : (s.takeFault f).st = s.st := rfl
@[simp] theorem takeFault_paused (f : Fault) : (s.takeFault f).paused = s.paused := rfl
@[simp] theorem takeFault_w (f : Fault) : (s.takeFault f).w = s.w := rfl
@[simp] theorem takeFault_fault (f : Fault) : (s.takeFault f).fault = some { kind := f, faultPc := s.pc } := rfl
@[simp] theorem takeFault_fb (f : Fault) : (s.takeFault f).fb = s.fb := rfl
@[simp] theorem takeFault_inputs (f : Fault) : (s.takeFault f).inputs = s.inputs := rfl
@[simp] theorem takeFault_cycles (f : Fault) : (s.takeFault f).cycles = s.cycles := rfl
@[simp] theorem takeFault_cfg (f : Fault) : (s.takeFault f).cfg = s.cfg := rfl

/-! ### displayClear -/

@[simp] theorem displayClear_mem : (s.displayClear).mem = s.mem := rfl
@[simp] theorem displayClear_v : (s.displayClear).v = s.v := rfl
@[simp] theorem displayClear_i : (s.displayClear).i = s.i := rfl
@[simp] theorem displayClear_pc : (s.displayClear).pc = s.pc := rfl
@[simp] theorem displayClear_stack : (s.displayClear).stack = s.stack := rfl
@[simp] theorem displayClear_dt : (s.displayClear).dt = s.dt := rfl
@[simp] theorem displayClear_st : (s.displayClear).st = s.st := rfl
@[simp] theorem displayClear_paused : (s.displayClear).paused = s.paused := rfl
@[simp] theorem displayClear_w : (s.displayClear).w = s.w := rfl
@[simp] theorem displayClear_fault : (s.displayClear).fault = s.fault := rfl
@[simp] theorem displayClear_fb : (s.displayClear).fb = blankDisplay := rfl
@[simp] theorem displayClear_inputs : (s.displayClear).inputs = s.inputs := rfl
@[simp] theorem displayClear_cycles : (s.displayClear).cycles = s.cycles := rfl
@[simp] theorem displayClear_cfg : (s.displayClear).cfg = s.cfg := rfl

/-! ### timerUpdate -/

@[simp] theorem timerUpdate_mem : (s.timerUpdate).mem = s.mem := rfl
@[simp] theorem timerUpdate_v : (s.timerUpdate).v = s.v := rfl
@[simp] theorem timerUpdate_i : (s.timerUpdate).i = s.i := rfl
@[simp] theorem timerUpdate_pc : (s.timerUpdate).pc = s.pc := rfl
@[simp] theorem timerUpdate_stack : (s.timerUpdate).stack = s.stack := rfl
@[simp] theorem timerUpdate_dt : (s.timerUpdate).dt = countDown s.dt := rfl
@[simp] theorem timerUpdate_st : (s.timerUpdate).st = countDown s.st := rfl
@[simp] theorem timerUpdate_paused : (s.timerUpdate).paused = s.paused := rfl
@[simp] theorem timerUpdate_w : (s.timerUpdate).w = s.w := rfl
@[simp] theorem timerUpdate_fault : (s.timerUpdate).fault = s.fault := rfl
@[simp] theorem timerUpdate_fb : (s.timerUpdate).fb = s.fb := rfl
@[simp] theorem timerUpdate_inputs : (s.timerUpdate).inputs = s.inputs := rfl
@[simp] theorem timerUpdate_cycles : (s.timerUpdate).cycles = s.cycles := rfl
@[simp] theorem timerUpdate_cfg : (s.timerUpdate).cfg = s.cfg := rfl

/-! ### nextInput -/

@[simp] theorem nextInput_mem : (s.nextInput).mem = s.mem := rfl
@[simp] theorem nextInput_v : (s.nextInput).v = s.v := rfl
@[simp] theorem nextInput_i : (s.nextInput).i = s.i := rfl
@[simp] theorem nextInput_pc : (s.nextInput).pc = s.pc := rfl
@[simp] theorem nextInput_stack : (s.nextInput).stack = s.stack := rfl
@[simp] theorem nextInput_dt : (s.nextInput).dt = s.dt := rfl
@[simp] theorem nextInput_st : (s.nextInput).st = s.st := rfl
@[simp] theorem nextInput_paused : (s.nextInput).paused = s.paused := rfl
@[simp] theorem nextInput_w : (s.nextInput).w = s.w := rfl
@[simp] theorem nextInput_fault : (s.nextInput).fault = s.fault := rfl
@[simp] theorem nextInput_fb : (s.nextInput).fb = s.fb := rfl
@[simp] theorem nextInput_inputs : (s.nextInput).inputs = s.inputs.tail := rfl
@[simp] theorem nextInput_cycles : (s.nextInput).cycles = s.cycles + 1 := rfl
@[simp] theorem nextInput_cfg : (s.nextInput).cfg = s.cfg := rfl

/-! ### The accessors over the updates -/

theorem reg_setReg_same (x : RegIdx) (b : Byte) : (s.setReg x b).reg x = b := by
  simp [State.reg, State.setReg]

theorem reg_setReg_other {x j : RegIdx} (b : Byte) (h : j ≠ x) : (s.setReg x b).reg j = s.reg j := by
  have : x.toNat ≠ j.toNat := fun e => h (BitVec.eq_of_toNat_eq e.symm)
  simp [State.reg, State.setReg, this]

/-- What a register holds after a register write. -/
theorem reg_setReg (x j : RegIdx) (b : Byte) : (s.setReg x b).reg j = if j = x then b else s.reg j := by
  split
  · subst j
    exact reg_setReg_same s x b
  · exact reg_setReg_other s b ‹_›

@[simp] theorem setReg_byte (x : RegIdx) (b : Byte) (k : Nat) : (s.setReg x b).byte k = s.byte k := rfl
@[simp] theorem setReg_pixel (x : RegIdx) (b : Byte) (px : Fin 64) (py : Fin 32) : (s.setReg x b).pixel px py = s.pixel px py := rfl
@[simp] theorem setReg_input (x : RegIdx) (b : Byte) : (s.setReg x b).input = s.input := rfl
@[simp] theorem setPc_reg (p : Word) (j : RegIdx) : (s.setPc p).reg j = s.reg j := rfl
@[simp] theorem setPc_byte (p : Word) (k : Nat) : (s.setPc p).byte k = s.byte k := rfl
@[simp] theorem setPc_pixel (p : Word) (px : Fin 64) (py : Fin 32) : (s.setPc p).pixel px py = s.pixel px py := rfl
@[simp] theorem setPc_input (p : Word) : (s.setPc p).input = s.input := rfl
@[simp] theorem advance_reg (j : RegIdx) : (s.advance).reg j = s.reg j := rfl
@[simp] theorem advance_byte (k : Nat) : (s.advance).byte k = s.byte k := rfl
@[simp] theorem advance_pixel (px : Fin 64) (py : Fin 32) : (s.advance).pixel px py = s.pixel px py := rfl
@[simp] theorem advance_input : (s.advance).input = s.input := rfl
@[simp] theorem skipIf_reg (c : Bool) (j : RegIdx) : (s.skipIf c).reg j = s.reg j := rfl
@[simp] theorem skipIf_byte (c : Bool) (k : Nat) : (s.skipIf c).byte k = s.byte k := rfl
@[simp] theorem skipIf_pixel (c : Bool) (px : Fin 64) (py : Fin 32) : (s.skipIf c).pixel px py = s.pixel px py := rfl
@[simp] theorem skipIf_input (c : Bool) : (s.skipIf c).input = s.input := rfl
@[simp] theorem takeFault_reg (f : Fault) (j : RegIdx) : (s.takeFault f).reg j = s.reg j := rfl
@[simp] theorem takeFault_byte (f : Fault) (k : Nat) : (s.takeFault f).byte k = s.byte k := rfl
@[simp] theorem takeFault_pixel (f : Fault) (px : Fin 64) (py : Fin 32) : (s.takeFault f).pixel px py = s.pixel px py := rfl
@[simp] theorem takeFault_input (f : Fault) : (s.takeFault f).input = s.input := rfl
@[simp] theorem displayClear_reg (j : RegIdx) : (s.displayClear).reg j = s.reg j := rfl
@[simp] theorem displayClear_byte (k : Nat) : (s.displayClear).byte k = s.byte k := rfl
@[simp] theorem displayClear_input : (s.displayClear).input = s.input := rfl
@[simp] theorem timerUpdate_reg (j : RegIdx) : (s.timerUpdate).reg j = s.reg j := rfl
@[simp] theorem timerUpdate_byte (k : Nat) : (s.timerUpdate).byte k = s.byte k := rfl
@[simp] theorem timerUpdate_pixel (px : Fin 64) (py : Fin 32) : (s.timerUpdate).pixel px py = s.pixel px py := rfl
@[simp] theorem timerUpdate_input : (s.timerUpdate).input = s.input := rfl
@[simp] theorem nextInput_reg (j : RegIdx) : (s.nextInput).reg j = s.reg j := rfl
@[simp] theorem nextInput_byte (k : Nat) : (s.nextInput).byte k = s.byte k := rfl
@[simp] theorem nextInput_pixel (px : Fin 64) (py : Fin 32) : (s.nextInput).pixel px py = s.pixel px py := rfl

@[simp] theorem displayClear_pixel (px : Fin 64) (py : Fin 32) : s.displayClear.pixel px py = false := by
  simp [State.pixel, State.displayClear, blankDisplay]

@[simp] theorem commit_ok (t : State) : s.commit (.ok t) = t := rfl
@[simp] theorem commit_error (f : Fault) : s.commit (.error f) = s.takeFault f := rfl

end Sys2Proof.Machine
end

