-- ==== Sys2Proof/Laws/Ops.lean ====
section
/-! SUPPORT. One lemma for each shared operation that says all it can do; provers cite these instead of unfolding. -/
namespace Sys2Proof.Machine

variable {s t : State} {a n : Nat} {b : Byte} {bs : List Byte} {f : Fault}

/-! ### The memory port -/

theorem memRead_inside (s : State) (h : a < memSize) : s.memRead a = .ok (s.byte a) := if_pos h

theorem memRead_outside (s : State) (h : memSize ≤ a) : s.memRead a = .error (.memoryBounds a) :=
  if_neg (by omega)

/-- A byte write inside memory: the byte there, every other byte as before, the canonical form kept, and no other
field changed. -/
theorem memWrite_ok (h : s.memWrite a b = .ok t) :
    a < memSize ∧ t = { s with mem := writeCell s.cfg s.mem a b } := by
  unfold State.memWrite at h
  split at h
  · exact ⟨‹_›, by injection h with h; exact h.symm⟩
  · cases h

theorem memWrite_inside (s : State) (b : Byte) (h : a < memSize) :
    s.memWrite a b = .ok { s with mem := writeCell s.cfg s.mem a b } := if_pos h

theorem memWrite_outside (s : State) (b : Byte) (h : memSize ≤ a) : s.memWrite a b = .error (.memoryBounds a) :=
  if_neg (by omega)

/-- A block read inside memory answers its bytes (R54). -/
theorem readBytes_inside (s : State) (h : n = 0 ∨ a + n ≤ memSize) :
    s.readBytes a n = .ok ((List.range n).map fun k => s.byte (a + k)) := by
  induction n generalizing a with
  | zero => rfl
  | succ n ih =>
    have ha : a < memSize := by omega
    simp only [State.readBytes, memRead_inside s ha]
    rw [ih (by omega)]
    simp [List.range_succ_eq_map, Function.comp_def, Nat.add_assoc, Nat.add_comm 1]

/-- A block read that reaches outside memory raises MemoryBounds with the lowest offending address (R54). -/
theorem readBytes_outside (s : State) (h0 : n ≠ 0) (h : memSize < a + n) :
    s.readBytes a n = .error (.memoryBounds (max a memSize)) := by
  induction n generalizing a with
  | zero => exact absurd rfl h0
  | succ n ih =>
    simp only [State.readBytes]
    by_cases ha : a < memSize
    · rw [memRead_inside s ha]
      simp only []
      rw [ih (by omega) (by omega)]
      simp only [Except.error.injEq, Fault.memoryBounds.injEq]
      omega
    · rw [memRead_outside s (by omega)]
      simp only [Except.error.injEq, Fault.memoryBounds.injEq]
      omega

/-- A block write that reaches outside memory raises MemoryBounds with the lowest offending address (R54). -/
theorem writeBytes_outside (s : State) (h0 : bs ≠ []) (h : memSize < a + bs.length) :
    s.writeBytes a bs = .error (.memoryBounds (max a memSize)) := by
  induction bs generalizing a s with
  | nil => exact absurd rfl h0
  | cons b bs ih =>
    simp only [State.writeBytes]
    by_cases ha : a < memSize
    · rw [memWrite_inside s b ha]
      simp only [List.length_cons] at h
      have hne : bs ≠ [] := fun e => by subst e; simp at h; omega
      simp only []
      rw [ih _ hne (by omega)]
      simp only [Except.error.injEq, Fault.memoryBounds.injEq]
      omega
    · rw [memWrite_outside s b (by omega)]
      simp only [Except.error.injEq, Fault.memoryBounds.injEq]
      omega

/-- A block write inside memory succeeds (R54). -/
theorem writeBytes_inside (s : State) (h : bs = [] ∨ a + bs.length ≤ memSize) : ∃ t, s.writeBytes a bs = .ok t := by
  induction bs generalizing a s with
  | nil => exact ⟨s, rfl⟩
  | cons b bs ih =>
    simp only [List.length_cons, reduceCtorEq, false_or] at h
    simp only [State.writeBytes, memWrite_inside s b (show a < memSize by omega)]
    exact ih _ (.inr (by omega))

/-- All a block write changes is memory. -/
theorem writeBytes_onlyMem (h : s.writeBytes a bs = .ok t) : t = { s with mem := t.mem } := by
  induction bs generalizing a s with
  | nil => injection h with h; subst h; rfl
  | cons b bs ih =>
    simp only [State.writeBytes] at h
    split at h
    · cases h
    · rename_i u hu
      obtain ⟨-, rfl⟩ := memWrite_ok hu
      exact (ih h).trans rfl

/-- Outside its block a block write leaves every byte alone. -/
theorem writeBytes_byte_other {k : Nat} (h : s.writeBytes a bs = .ok t) (hk : k < a ∨ a + bs.length ≤ k) :
    t.byte k = s.byte k := by
  induction bs generalizing a s with
  | nil => injection h with h; subst h; rfl
  | cons b bs ih =>
    simp only [State.writeBytes] at h
    simp only [List.length_cons] at hk
    split at h
    · cases h
    · rename_i u hu
      obtain ⟨-, rfl⟩ := memWrite_ok hu
      rw [ih h (by omega)]
      exact readCell_writeCell_other (by omega)

/-- A block write keeps the canonical form. -/
theorem writeBytes_canonical (h : s.writeBytes a bs = .ok t) (hw : s.MemCanonical) : t.MemCanonical := by
  induction bs generalizing a s with
  | nil => injection h with h; subst h; exact hw
  | cons b bs ih =>
    simp only [State.writeBytes] at h
    split at h
    · cases h
    · rename_i u hu
      obtain ⟨ha, rfl⟩ := memWrite_ok hu
      exact ih h (wf_writeCell ha hw)

/-- After a block write to a canonical memory its bytes are there. -/
theorem writeBytes_byte_inside {k : Nat} (h : s.writeBytes a bs = .ok t) (hw : s.MemCanonical) (hk : k < bs.length) :
    t.byte (a + k) = bs[k] := by
  induction bs generalizing a s k with
  | nil => simp at hk
  | cons b bs ih =>
    simp only [State.writeBytes] at h
    split at h
    · cases h
    · rename_i u hu
      obtain ⟨ha, rfl⟩ := memWrite_ok hu
      cases k with
      | zero =>
        rw [writeBytes_byte_other h (by omega)]
        exact readCell_writeCell_same hw
      | succ k =>
        have := ih h (wf_writeCell ha hw) (k := k) (by simpa using hk)
        simpa [Nat.add_assoc, Nat.add_comm 1] using this

/-! ### The call stack -/

theorem stackFull_iff (s : State) : s.stackFull = true ↔ s.cfg.stackDepth = some s.stack.length := by
  unfold State.stackFull
  cases s.cfg.stackDepth with
  | none => constructor <;> intro h <;> cases h
  | some d =>
    constructor
    · exact fun h => congrArg some (eq_of_beq h).symm
    · exact fun h => beq_iff_eq.mpr (Option.some.inj h).symm

/-- What a push can do (R27). -/
theorem push_cases (s : State) (v : Word) :
    (s.cfg.stackDepth = some s.stack.length ∧ s.push v = .error .stackOverflow) ∨
    (s.cfg.stackDepth ≠ some s.stack.length ∧ s.push v = .ok { s with stack := v :: s.stack }) := by
  unfold State.push
  by_cases h : s.stackFull = true
  · exact .inl ⟨(stackFull_iff s).mp h, if_pos h⟩
  · exact .inr ⟨fun e => h ((stackFull_iff s).mpr e), if_neg h⟩

/-- What a pop can do (R28). -/
theorem pop_cases (s : State) :
    (s.stack = [] ∧ s.pop = .error .stackUnderflow) ∨
    (∃ v rest, s.stack = v :: rest ∧ s.pop = .ok (v, { s with stack := rest })) := by
  unfold State.pop
  cases h : s.stack with
  | nil => exact .inl ⟨rfl, rfl⟩
  | cons v rest => exact .inr ⟨v, rest, rfl, rfl⟩

/-! ### Fetch -/

/-- A fetch inside memory reads the word big-endian (R55). -/
theorem fetch_inside (s : State) (h : s.pc.toNat + 1 < memSize) :
    s.fetch = .ok (wordOfBytes (s.byte s.pc.toNat) (s.byte (s.pc.toNat + 1))) := by
  unfold State.fetch
  rw [memRead_inside s (show s.pc.toNat < memSize by omega)]
  simp only []
  rw [memRead_inside s h]

/-- A fetch outside memory raises MemoryBounds with the first address outside (R55). -/
theorem fetch_outside (s : State) (h : memSize ≤ s.pc.toNat + 1) :
    s.fetch = .error (.memoryBounds (max s.pc.toNat memSize)) := by
  unfold State.fetch
  by_cases hp : s.pc.toNat < memSize
  · rw [memRead_inside s hp]
    simp only []
    rw [memRead_outside s h]
    simp only [Except.error.injEq, Fault.memoryBounds.injEq]
    omega
  · rw [memRead_outside s (by omega)]
    simp only [Except.error.injEq, Fault.memoryBounds.injEq]
    omega

/-! ### Register blocks -/

@[simp] theorem regBlock_length (s : State) (x : RegIdx) : (s.regBlock x).length = x.toNat + 1 := by
  have := x.isLt
  simp [State.regBlock]
  omega

theorem regBlock_getElem (s : State) (x j : RegIdx) (h : j.toNat < (s.regBlock x).length) :
    (s.regBlock x)[j.toNat] = s.reg j := by
  simp [State.regBlock, State.reg]

/-- All a block load changes is the register file. -/
theorem setRegsFrom_onlyRegs (s : State) (k : Nat) (bs : List Byte) :
    s.setRegsFrom k bs = { s with v := (s.setRegsFrom k bs).v } := by
  induction bs generalizing s k with
  | nil => rfl
  | cons b bs ih => rw [State.setRegsFrom, ih]; rfl

/-- What a register holds after `V[k], V[k+1], … <- bs`. -/
theorem setRegsFrom_reg (s : State) (k : Nat) (bs : List Byte) (h : k + bs.length ≤ 16) (j : RegIdx) :
    (s.setRegsFrom k bs).reg j = if hj : k ≤ j.toNat ∧ j.toNat < k + bs.length then bs[j.toNat - k]'(by omega)
      else s.reg j := by
  induction bs generalizing s k with
  | nil => simp [State.setRegsFrom]
  | cons b bs ih =>
    simp only [List.length_cons] at h ⊢
    rw [State.setRegsFrom, ih _ _ (by omega), reg_setReg]
    have hk : (BitVec.ofNat 4 k).toNat = k := by rw [BitVec.toNat_ofNat]; omega
    have hjk : j = BitVec.ofNat 4 k ↔ j.toNat = k := by rw [← BitVec.toNat_inj, hk]
    by_cases h1 : j.toNat = k
    · rw [dif_neg (by omega), if_pos (hjk.mpr h1), dif_pos (by omega)]
      simp [h1]
    · rw [if_neg (mt hjk.mp h1)]
      by_cases h2 : k + 1 ≤ j.toNat ∧ j.toNat < k + 1 + bs.length
      · rw [dif_pos h2, dif_pos (by omega)]
        have : j.toNat - k = (j.toNat - (k + 1)) + 1 := by omega
        simp [this]
      · rw [dif_neg h2, dif_neg (by omega)]

/-! ### The display -/

/-- A toggle turns its pixel over and leaves every other pixel alone (R182). -/
theorem togglePixel_getElem (fb : FrameBuffer) (px qx : Fin 64) (py qy : Fin 32) :
    (togglePixel fb px py)[qy][qx] = if qx = px ∧ qy = py then !fb[qy][qx] else fb[qy][qx] := by
  obtain ⟨px, hpx⟩ := px
  obtain ⟨qx, hqx⟩ := qx
  obtain ⟨py, hpy⟩ := py
  obtain ⟨qy, hqy⟩ := qy
  by_cases h1 : py = qy
  · subst h1
    by_cases h2 : px = qx
    · subst h2; simp [togglePixel]
    · simp [togglePixel, h2, eq_comm]
  · simp [togglePixel, h1, eq_comm]

end Sys2Proof.Machine
end

