-- ==== Sys2Proof/Laws/Display.lean ====
section
/-! SUPPORT. What drawing a sprite does: the set bits of its rows, where they are placed, and the pixels after. -/
namespace Sys2Proof.Machine

/-- The set bits of the rows from `row` down (R143): column c of the row k below is bit 7 - c of its byte. -/
theorem mem_spriteBits {row : Nat} {rows : List Byte} {b : SpriteBit} :
    b ∈ spriteBits row rows ↔
      b.col < 8 ∧ row ≤ b.row ∧ ∃ h : b.row - row < rows.length, rows[b.row - row].getLsbD (7 - b.col) = true := by
  induction rows generalizing row with
  | nil => simp [spriteBits]
  | cons v vs ih =>
    obtain ⟨c, r⟩ := b
    simp only [spriteBits, List.mem_append, ih, rowBits, List.mem_map, List.mem_filter, List.mem_range,
      SpriteBit.mk.injEq]
    constructor
    · rintro (⟨c', ⟨h1, h2⟩, rfl, rfl⟩ | ⟨h1, h2, h3, h4⟩)
      · exact ⟨h1, Nat.le_refl _, by simp, by simpa using h2⟩
      · refine ⟨h1, by omega, by simp only [List.length_cons]; omega, ?_⟩
        have e : r - row = (r - (row + 1)) + 1 := by omega
        simpa [e] using h4
    · rintro ⟨h1, h2, h3, h4⟩
      by_cases hr : r = row
      · subst hr
        exact .inl ⟨c, ⟨h1, by simpa using h4⟩, rfl, rfl⟩
      · refine .inr ⟨h1, by omega, by simp only [List.length_cons] at h3; omega, ?_⟩
        have e : r - row = (r - (row + 1)) + 1 := by omega
        simpa [e] using h4

/-- No bit is listed twice. -/
theorem spriteBits_nodup (row : Nat) (rows : List Byte) : (spriteBits row rows).Nodup := by
  induction rows generalizing row with
  | nil => exact List.nodup_nil
  | cons v vs ih =>
    refine List.nodup_append.mpr ⟨?_, ih _, ?_⟩
    · exact (List.nodup_range.filter _).map fun a b h => by injection h
    · intro a ha b hb hab
      subst hab
      have := (mem_spriteBits.mp hb).2.1
      simp only [rowBits, List.mem_map] at ha
      obtain ⟨c, -, rfl⟩ := ha
      simp only at this
      omega

theorem onScreen_eq_some {px py : Nat} {p : Fin 64 × Fin 32} :
    onScreen px py = some p ↔ p.1.val = px ∧ p.2.val = py := by
  obtain ⟨⟨p1, h1⟩, ⟨p2, h2⟩⟩ := p
  unfold onScreen
  split
  · simp [Fin.ext_iff, eq_comm]
  · rename_i hn
    simp only [reduceCtorEq, false_iff, not_and]
    rintro rfl rfl
    exact hn ⟨h1, h2⟩

/-- The table of R144: which pixel a set bit is sent to. -/
theorem place_eq_some {e : DrawEdge} {cx cy : Nat} {b : SpriteBit} {p : Fin 64 × Fin 32} :
    place e cx cy b = some p ↔
      match e with
      | .wrap => p.1.val = (cx + b.col) % 64 ∧ p.2.val = (cy + b.row) % 32
      | .clip => p.1.val = cx + b.col ∧ p.2.val = cy + b.row
      | .wrapStartClip => p.1.val = cx % 64 + b.col ∧ p.2.val = cy % 32 + b.row
      | .fault => p.1.val = cx + b.col ∧ p.2.val = cy + b.row := by
  cases e
  · simp [place, Prod.ext_iff, Fin.ext_iff, eq_comm]
  all_goals exact onScreen_eq_some

/-- No two bits of one sprite are sent to one pixel: 8 columns and 15 rows are fewer than 64 and 32 (R143). -/
theorem place_injective {e : DrawEdge} {cx cy : Nat} {b b' : SpriteBit} {p : Fin 64 × Fin 32}
    (hb : b.col < 8 ∧ b.row < 16) (hb' : b'.col < 8 ∧ b'.row < 16)
    (h : place e cx cy b = some p) (h' : place e cx cy b' = some p) : b = b' := by
  obtain ⟨c, r⟩ := b
  obtain ⟨c', r'⟩ := b'
  rw [place_eq_some] at h h'
  simp only [SpriteBit.mk.injEq]
  simp only at hb hb'
  cases e <;> simp only at h h' <;> omega

/-- The pixels a sprite's bits are sent to are all different. -/
theorem placed_nodup (e : DrawEdge) (cx cy : Nat) (rows : List Byte) (h : rows.length ≤ 16) :
    ((spriteBits 0 rows).filterMap (place e cx cy)).Nodup := by
  refine List.pairwise_filterMap.mpr ((spriteBits_nodup 0 rows).imp_of_mem ?_)
  intro b b' hb hb' hne p hp p' hp' hpp
  subst hpp
  obtain ⟨h1, -, h2, -⟩ := mem_spriteBits.mp hb
  obtain ⟨h1', -, h2', -⟩ := mem_spriteBits.mp hb'
  exact hne (place_injective ⟨h1, by omega⟩ ⟨h1', by omega⟩ hp hp')

/-- What drawing does, when its bits go to different pixels: exactly those pixels are turned over, and a collision is
kept when one of them was on. -/
theorem drawBits_spec (e : DrawEdge) (cx cy : Nat) (bits : List SpriteBit) (fb : FrameBuffer) (c : Bool)
    (hn : (bits.filterMap (place e cx cy)).Nodup) :
    (∀ (qx : Fin 64) (qy : Fin 32), (drawBits e cx cy bits fb c).1[qy][qx] =
      if (qx, qy) ∈ bits.filterMap (place e cx cy) then !fb[qy][qx] else fb[qy][qx]) ∧
    (drawBits e cx cy bits fb c).2 = (c || (bits.filterMap (place e cx cy)).any fun p => fb[p.2][p.1]) := by
  induction bits generalizing fb c with
  | nil => simp [drawBits]
  | cons b bs ih =>
    cases hp : place e cx cy b with
    | none =>
      rw [List.filterMap_cons_none hp] at hn ⊢
      simpa [drawBits, hp] using ih fb c hn
    | some p =>
      obtain ⟨px, py⟩ := p
      rw [List.filterMap_cons_some hp] at hn ⊢
      obtain ⟨hmem, hn'⟩ := List.nodup_cons.mp hn
      obtain ⟨h1, h2⟩ := ih (togglePixel fb px py) (c || fb[py][px]) hn'
      simp only [drawBits, hp]
      refine ⟨fun qx qy => ?_, ?_⟩
      · rw [h1, togglePixel_getElem]
        by_cases hq : qx = px ∧ qy = py
        · obtain ⟨rfl, rfl⟩ := hq
          simp [hmem]
        · have hq' : (qx, qy) ≠ (px, py) := fun e => hq (by simpa using e)
          simp [hq, hq']
      · rw [h2, List.any_cons, Bool.or_assoc]
        congr 2
        rw [Bool.eq_iff_iff, List.any_eq_true, List.any_eq_true]
        refine exists_congr fun q => and_congr_right fun hq => ?_
        have hne : ¬ (q.1 = px ∧ q.2 = py) := fun h => hmem (by
          rw [← h.1, ← h.2]
          exact hq)
        rw [togglePixel_getElem, if_neg hne]

end Sys2Proof.Machine
end

