-- ==== Sys2Proof/Laws/PerInstr.lean ====
section
/-! SUPPORT. Statements about every instruction as syntax, one lemma for each constructor. The family
WellFormedOperands: every operand an instruction names is in its range (spec/30_encoding.md R74, R80). -/
namespace Sys2Proof.Laws

theorem reg_inRange (x : BitVec 4) : Operand.wellFormed (.reg x.toNat) = true := decide_eq_true x.isLt
theorem byte_inRange (b : Byte) : Operand.wellFormed (.byte b.toNat) = true := decide_eq_true b.isLt
theorem addr_inRange (a : Addr) : Operand.wellFormed (.addr a.toNat) = true := decide_eq_true a.isLt
theorem count_inRange (n : Nibble) : Operand.wellFormed (.count n.toNat) = true := decide_eq_true n.isLt

namespace WellFormedOperands

/-- The instruction is well formed. -/
def Statement (i : Instr) : Prop := i.WellFormed = true

theorem cls : Statement .cls := rfl
theorem ret : Statement .ret := rfl
theorem jp (a : Addr) : Statement (.jp a) :=
  by simp [Statement, Instr.WellFormed, Instr.operands, addr_inRange]
theorem call (a : Addr) : Statement (.call a) :=
  by simp [Statement, Instr.WellFormed, Instr.operands, addr_inRange]
theorem seImm (x : RegIdx) (nn : Byte) : Statement (.seImm x nn) :=
  by simp [Statement, Instr.WellFormed, Instr.operands, reg_inRange, byte_inRange]
theorem sneImm (x : RegIdx) (nn : Byte) : Statement (.sneImm x nn) :=
  by simp [Statement, Instr.WellFormed, Instr.operands, reg_inRange, byte_inRange]
theorem seReg (x y : RegIdx) : Statement (.seReg x y) :=
  by simp [Statement, Instr.WellFormed, Instr.operands, reg_inRange]
theorem ldImm (x : RegIdx) (nn : Byte) : Statement (.ldImm x nn) :=
  by simp [Statement, Instr.WellFormed, Instr.operands, reg_inRange, byte_inRange]
theorem addImm (x : RegIdx) (nn : Byte) : Statement (.addImm x nn) :=
  by simp [Statement, Instr.WellFormed, Instr.operands, reg_inRange, byte_inRange]
theorem ldReg (x y : RegIdx) : Statement (.ldReg x y) :=
  by simp [Statement, Instr.WellFormed, Instr.operands, reg_inRange]
theorem orReg (x y : RegIdx) : Statement (.orReg x y) :=
  by simp [Statement, Instr.WellFormed, Instr.operands, reg_inRange]
theorem andReg (x y : RegIdx) : Statement (.andReg x y) :=
  by simp [Statement, Instr.WellFormed, Instr.operands, reg_inRange]
theorem xorReg (x y : RegIdx) : Statement (.xorReg x y) :=
  by simp [Statement, Instr.WellFormed, Instr.operands, reg_inRange]
theorem addReg (x y : RegIdx) : Statement (.addReg x y) :=
  by simp [Statement, Instr.WellFormed, Instr.operands, reg_inRange]
theorem subReg (x y : RegIdx) : Statement (.subReg x y) :=
  by simp [Statement, Instr.WellFormed, Instr.operands, reg_inRange]
theorem shrReg (x y : RegIdx) : Statement (.shrReg x y) :=
  by simp [Statement, Instr.WellFormed, Instr.operands, reg_inRange]
theorem subnReg (x y : RegIdx) : Statement (.subnReg x y) :=
  by simp [Statement, Instr.WellFormed, Instr.operands, reg_inRange]
theorem shlReg (x y : RegIdx) : Statement (.shlReg x y) :=
  by simp [Statement, Instr.WellFormed, Instr.operands, reg_inRange]
theorem sneReg (x y : RegIdx) : Statement (.sneReg x y) :=
  by simp [Statement, Instr.WellFormed, Instr.operands, reg_inRange]
theorem ldI (a : Addr) : Statement (.ldI a) :=
  by simp [Statement, Instr.WellFormed, Instr.operands, addr_inRange]
theorem jpV0 (a : Addr) : Statement (.jpV0 a) :=
  by simp [Statement, Instr.WellFormed, Instr.operands, addr_inRange]
theorem rnd (x : RegIdx) (nn : Byte) : Statement (.rnd x nn) :=
  by simp [Statement, Instr.WellFormed, Instr.operands, reg_inRange, byte_inRange]
theorem drw (x y : RegIdx) (n : Nibble) : Statement (.drw x y n) :=
  by simp [Statement, Instr.WellFormed, Instr.operands, reg_inRange, count_inRange]
theorem skp (x : RegIdx) : Statement (.skp x) :=
  by simp [Statement, Instr.WellFormed, Instr.operands, reg_inRange]
theorem sknp (x : RegIdx) : Statement (.sknp x) :=
  by simp [Statement, Instr.WellFormed, Instr.operands, reg_inRange]
theorem ldVxDT (x : RegIdx) : Statement (.ldVxDT x) :=
  by simp [Statement, Instr.WellFormed, Instr.operands, reg_inRange]
theorem ldVxK (x : RegIdx) : Statement (.ldVxK x) :=
  by simp [Statement, Instr.WellFormed, Instr.operands, reg_inRange]
theorem ldDTVx (x : RegIdx) : Statement (.ldDTVx x) :=
  by simp [Statement, Instr.WellFormed, Instr.operands, reg_inRange]
theorem ldSTVx (x : RegIdx) : Statement (.ldSTVx x) :=
  by simp [Statement, Instr.WellFormed, Instr.operands, reg_inRange]
theorem addI (x : RegIdx) : Statement (.addI x) :=
  by simp [Statement, Instr.WellFormed, Instr.operands, reg_inRange]
theorem ldF (x : RegIdx) : Statement (.ldF x) :=
  by simp [Statement, Instr.WellFormed, Instr.operands, reg_inRange]
theorem ldB (x : RegIdx) : Statement (.ldB x) :=
  by simp [Statement, Instr.WellFormed, Instr.operands, reg_inRange]
theorem storeRegs (x : RegIdx) : Statement (.storeRegs x) :=
  by simp [Statement, Instr.WellFormed, Instr.operands, reg_inRange]
theorem loadRegs (x : RegIdx) : Statement (.loadRegs x) :=
  by simp [Statement, Instr.WellFormed, Instr.operands, reg_inRange]

end WellFormedOperands

end Sys2Proof.Laws
end

