-- ==== Sys2Proof/Laws/Step.lean ====
section
/-! SUPPORT. What one step can do, said once. -/
namespace Sys2Proof.Machine

variable {s t : State}

/-- The end of a cycle that raised no fault. -/
theorem endCycle_running (h : s.fault = none) : s.endCycle = s.timerUpdate.nextInput := by
  simp [State.endCycle, h]

/-- The end of a cycle that raised a fault. -/
theorem endCycle_faulted {r : FaultRecord} (h : s.fault = some r) : s.endCycle = s := by
  simp [State.endCycle, h]

/-- What the resume step can do (R98). -/
theorem resume_cases (s : State) :
    (s.keyEvent = none ∧ s.resume = s) ∨
    (∃ k, s.keyEvent = some k ∧ s.resume = { s.setReg s.w (zextKey k) with paused := false }) := by
  unfold State.resume
  cases h : s.keyEvent with
  | none => exact .inl ⟨rfl, rfl⟩
  | some k => exact .inr ⟨k, rfl, rfl⟩

/-- A step that answers a next state (R101): the core was halted; or paused; or the fetch faulted; or the word was
illegal; or it executed an instruction. -/
theorem step_cases (h : step s = .next t) :
    (s.fault.isSome = true ∧ t = s) ∨
    (s.fault = none ∧ s.paused = true ∧ t = s.resume.endCycle) ∨
    (s.fault = none ∧ s.paused = false ∧ ∃ f, s.fetch = .error f ∧ t = s.takeFault f) ∨
    (s.fault = none ∧ s.paused = false ∧
      ∃ w e, s.fetch = .ok w ∧ decode w = .error e ∧ t = s.takeFault (.unknownOpcode w)) ∨
    (s.fault = none ∧ s.paused = false ∧
      ∃ w i u, s.fetch = .ok w ∧ decode w = .ok i ∧ exec i s = .next u ∧ t = u.endCycle) := by
  unfold step cycle at h
  split at h
  · injection h with h
    exact .inl ⟨‹_›, h.symm⟩
  · rename_i hn
    have hf : s.fault = none := by simpa using hn
    split at h
    · injection h with h
      exact .inr (.inl ⟨hf, ‹_›, h.symm⟩)
    · rename_i hq
      have hp : s.paused = false := by simpa using hq
      refine .inr (.inr ?_)
      unfold runCycle at h
      split at h
      · rename_i w hw
        unfold runWord at h
        split at h
        · rename_i i hi
          unfold finishCycle at h
          split at h
          · rename_i u hu
            injection h with h
            exact .inr (.inr ⟨hf, hp, w, i, u, hw, hi, hu, h.symm⟩)
          · cases h
          · cases h
        · rename_i e he
          injection h with h
          exact .inr (.inl ⟨hf, hp, w, e, hw, he, h.symm⟩)
      · rename_i f hfe
        injection h with h
        exact .inl ⟨hf, hp, f, hfe, h.symm⟩

/-- When an instruction executes next, the step is its meaning and then the end of the cycle. -/
theorem step_of_nextInstr {i : Instr} (h : s.nextInstr = some i) : step s = finishCycle (exec i s) := by
  unfold State.nextInstr at h
  split at h
  · cases h
  · rename_i hn
    simp only [State.Halted, Bool.or_eq_true, not_or] at hn
    split at h
    · cases h
    · rename_i w hw
      split at h
      · rename_i j hj
        injection h with h
        subst h
        simp [step, cycle, hn.1, hn.2, runCycle, hw, runWord, hj]
      · cases h

end Sys2Proof.Machine
end

