-- ==== Sys2Proof/Tests/Slice0.lean ====
section
/-! SUPPORT. Tests. Every expected value is the spec's: spec/95_test_vectors.md (the section or the id is named) or the
example of the instruction's rule. -/
namespace Sys2Proof.Tests
open Sys2Proof.Machine

/-! ### Helpers -/

/-- The reset state with some registers set. -/
def regs (l : List (RegIdx × Byte)) : State := l.foldl (fun s p => s.setReg p.1 p.2) State.reset

/-- The state after one cycle that fetches `w` at pc. -/
def run1 (s : State) (w : Nat) : State :=
  match step (s.withFetchWord 16 w) with
  | .next t => t
  | .fault _ | .refused _ => s

/-- The state after one cycle. -/
def tickOnce (s : State) : State :=
  match step s with
  | .next t => t
  | .fault _ | .refused _ => s

/-- A state with bytes in memory from `a` up. -/
def poke (s : State) (a : Nat) (bs : List Byte) : State := s.commit (s.writeBytes a bs)

/-- The bytes of memory from `a` up. -/
def peek (s : State) (a n : Nat) : List Byte := (List.range n).map fun k => s.byte (a + k)

/-- An input record with a random byte, the keys held and a key event. -/
def input (rand : Byte) (held : List Key) (event : Option Key) : CycleInput :=
  { keyEvent := event, pressed := Vector.ofFn fun k => held.contains (BitVec.ofNat 4 k.val), rand := rand }

/-- The lit pixels of a row. -/
def litColumns (s : State) (py : Fin 32) : List (Fin 64) := (List.finRange 64).filter fun px => s.pixel px py

/-- The fault latch's kind and fault_pc. -/
def latched (s : State) : Option (Fault × Word) := s.fault.map fun r => (r.kind, r.faultPc)

/-! ### WellFormed: each check refuses an ill-formed operand (R71, R80) -/

theorem test_operand_reg_refused : Operand.wellFormed (.reg 16) = false := by decide
theorem test_operand_byte_refused : Operand.wellFormed (.byte 256) = false := by decide
theorem test_operand_addr_refused : Operand.wellFormed (.addr 4096) = false := by decide
theorem test_operand_count_refused : Operand.wellFormed (.count 16) = false := by decide

/-! ### Decode: words written out from the encodings of R72 and R77 (section 2.1) -/

theorem test_decode_flow :
    decode 0b0000000011100000#16 = .ok .cls ∧ decode 0b0000000011101110#16 = .ok .ret ∧
    decode 0b0001111111111111#16 = .ok (.jp 0xFFF#12) ∧ decode 0b0010001100000000#16 = .ok (.call 0x300#12) := by decide

theorem test_decode_skips :
    decode 0b0011001101000010#16 = .ok (.seImm 0x3#4 0x42#8) ∧ decode 0b0100001101000010#16 = .ok (.sneImm 0x3#4 0x42#8) ∧
    decode 0b0101000100100000#16 = .ok (.seReg 0x1#4 0x2#4) ∧ decode 0b1001000100100000#16 = .ok (.sneReg 0x1#4 0x2#4) := by
  decide

theorem test_decode_immediates :
    decode 0b0110101000101011#16 = .ok (.ldImm 0xA#4 0x2B#8) ∧ decode 0b0111000000000101#16 = .ok (.addImm 0x0#4 0x05#8) := by
  decide

theorem test_decode_alu :
    decode 0b1000000100100000#16 = .ok (.ldReg 0x1#4 0x2#4) ∧ decode 0b1000000100100001#16 = .ok (.orReg 0x1#4 0x2#4) ∧
    decode 0b1000000100100010#16 = .ok (.andReg 0x1#4 0x2#4) ∧ decode 0b1000000100100011#16 = .ok (.xorReg 0x1#4 0x2#4) ∧
    decode 0b1000000100100100#16 = .ok (.addReg 0x1#4 0x2#4) ∧ decode 0b1000000100100101#16 = .ok (.subReg 0x1#4 0x2#4) ∧
    decode 0b1000000100100110#16 = .ok (.shrReg 0x1#4 0x2#4) ∧ decode 0b1000000100100111#16 = .ok (.subnReg 0x1#4 0x2#4) ∧
    decode 0b1000000100101110#16 = .ok (.shlReg 0x1#4 0x2#4) := by decide

theorem test_decode_index_draw :
    decode 0b1010001100000000#16 = .ok (.ldI 0x300#12) ∧ decode 0b1011111111111111#16 = .ok (.jpV0 0xFFF#12) ∧
    decode 0b1100001100001111#16 = .ok (.rnd 0x3#4 0x0F#8) ∧ decode 0b1101000100100101#16 = .ok (.drw 0x1#4 0x2#4 0x5#4) := by
  decide

theorem test_decode_keys_timers :
    decode 0b1110001010011110#16 = .ok (.skp 0x2#4) ∧ decode 0b1110001010100001#16 = .ok (.sknp 0x2#4) ∧
    decode 0b1111000100000111#16 = .ok (.ldVxDT 0x1#4) ∧ decode 0b1111000100001010#16 = .ok (.ldVxK 0x1#4) ∧
    decode 0b1111000100010101#16 = .ok (.ldDTVx 0x1#4) ∧ decode 0b1111000100011000#16 = .ok (.ldSTVx 0x1#4) := by decide

theorem test_decode_index_memory :
    decode 0b1111000100011110#16 = .ok (.addI 0x1#4) ∧ decode 0b1111000100101001#16 = .ok (.ldF 0x1#4) ∧
    decode 0b1111000100110011#16 = .ok (.ldB 0x1#4) ∧ decode 0b1111000101010101#16 = .ok (.storeRegs 0x1#4) ∧
    decode 0b1111000101100101#16 = .ok (.loadRegs 0x1#4) := by decide

theorem test_decode_illegal :
    decode 0x0000#16 = .error (.illegal 0x0000#16) ∧ decode 0x00E1#16 = .error (.illegal 0x00E1#16) ∧
    decode 0x0123#16 = .error (.illegal 0x0123#16) ∧ decode 0x5121#16 = .error (.illegal 0x5121#16) ∧
    decode 0x8128#16 = .error (.illegal 0x8128#16) ∧ decode 0x812F#16 = .error (.illegal 0x812F#16) ∧
    decode 0x9121#16 = .error (.illegal 0x9121#16) ∧ decode 0xE19F#16 = .error (.illegal 0xE19F#16) ∧
    decode 0xF130#16 = .error (.illegal 0xF130#16) ∧ decode 0xFFFF#16 = .error (.illegal 0xFFFF#16) := by decide

theorem test_decode_bytes_big_endian :
    decodeBytes [0x12, 0x34, 0x60] = .ok (.jp 0x234#12, [0x60]) ∧ decodeBytes [0x12] = .error (.truncated 1) := by decide

theorem test_table_has_34_rows : opcodeTable.length = 34 := by decide

/-! ### Reset, launch, load (sections 2.7, 3; T8) -/

theorem test_reset_values :
    State.reset.pc = 0x200#16 ∧ peek State.reset 0 6 = [0xF0, 0x90, 0x90, 0x90, 0xF0, 0x20] ∧
    peek State.reset 0x4F 2 = [0x80, 0x00] ∧ State.reset.byte 0x200 = 0 := by decide

theorem test_cycle_before_load : latched (tickOnce State.reset) = some (.unknownOpcode 0x0000#16, 0x200#16) := by decide

theorem test_load_too_large :
    latched (State.reset.load (List.replicate 3585 0x12)) = some (.programTooLarge 3585, 0x200#16) := by decide +kernel

theorem test_launch_runs_program :
    (tickOnce (State.launch defaultConfig [0x60, 0x01, 0x00, 0xEE])).reg 0 = 0x01 ∧
    latched (tickOnce (tickOnce (State.launch defaultConfig [0x60, 0x01, 0x00, 0xEE]))) =
      some (.stackUnderflow, 0x202#16) := by decide

/-! ### Fetch (section 2.1) -/

theorem test_fetch_odd_pc : (run1 { State.reset with pc := 0x201 } 0x6007).pc = 0x203 := by decide

theorem test_fetch_bounds :
    latched (tickOnce { State.reset with pc := 0xFFF }) = some (.memoryBounds 0x1000, 0xFFF#16) ∧
    latched (tickOnce { State.reset with pc := 0x10FE }) = some (.memoryBounds 0x10FE, 0x10FE#16) := by decide

/-! ### The cycle, pause and timers (section 2.2) -/

theorem test_timers_count_each_cycle :
    (run1 { State.reset with dt := 3 } 0x6000).dt = 2 ∧ (run1 { State.reset with st := 1 } 0x6000).st = 0 ∧
    (run1 State.reset 0x6000).dt = 0 := by decide

theorem test_paused_waits :
    let s := tickOnce { State.reset with paused := true, w := 4, pc := 0x202, dt := 5, inputs := [input 0 [] none] }
    s.dt = 4 ∧ s.paused = true ∧ s.pc = 0x202 := by decide

theorem test_paused_resumes :
    let s := tickOnce { State.reset with paused := true, w := 4, pc := 0x202, st := 2, inputs := [input 0 [] (some 0xB)] }
    s.reg 4 = 0x0B ∧ s.paused = false ∧ s.st = 1 ∧ s.pc = 0x202 := by decide

theorem test_halted_cycle_changes_nothing :
    let s := { State.reset with fault := some ⟨.stackUnderflow, 0x300⟩, dt := 5 }
    tickOnce s = s := by decide +kernel

theorem test_fault_keeps_timer :
    let s := run1 { State.reset with dt := 5 } 0xFFFF
    latched s = some (.unknownOpcode 0xFFFF#16, 0x200#16) ∧ s.dt = 5 := by decide

/-! ### Display clear, control transfer and skips (section 2.3) -/

theorem test_cls :
    let s := { State.reset with fb := togglePixel (togglePixel blankDisplay 3 4) 63 31 }
    (run1 s 0x00E0).fb = blankDisplay ∧ (run1 s 0x00E0).pc = 0x202 := by decide +kernel

theorem test_ret :
    (run1 { State.reset with stack := [0x202], pc := 0x300 } 0x00EE).pc = 0x202 ∧
    (run1 { State.reset with stack := [0x202], pc := 0x300 } 0x00EE).stack = [] ∧
    latched (run1 { State.reset with pc := 0x300 } 0x00EE) = some (.stackUnderflow, 0x300#16) := by decide

theorem test_jp : (run1 State.reset 0x1345).pc = 0x345 := by decide

theorem test_call :
    (run1 State.reset 0x2300).stack = [0x202] ∧ (run1 State.reset 0x2300).pc = 0x300 ∧
    (run1 { State.reset with pc := 0xFFE } 0x2400).stack = [0x1000] := by decide

theorem test_call_depth :
    let full := { State.reset with stack := List.replicate 16 0x202, pc := 0x300 }
    latched (run1 full 0x2300) = some (.stackOverflow, 0x300#16) ∧
    (run1 { full with cfg := { defaultConfig with stackDepth := none } } 0x2300).stack.length = 17 := by decide

theorem test_seImm : (run1 (regs [(3, 0x42)]) 0x3342).pc = 0x204 ∧ (run1 (regs [(3, 0x41)]) 0x3342).pc = 0x202 := by decide

theorem test_sneImm : (run1 (regs [(3, 0x41)]) 0x4342).pc = 0x204 ∧ (run1 (regs [(3, 0x42)]) 0x4342).pc = 0x202 := by decide

theorem test_seReg : (run1 (regs [(1, 7), (2, 7)]) 0x5120).pc = 0x204 ∧ (run1 (regs [(1, 7), (2, 8)]) 0x5120).pc = 0x202 := by
  decide

theorem test_sneReg : (run1 (regs [(1, 7), (2, 8)]) 0x9120).pc = 0x204 ∧ (run1 (regs [(1, 7)]) 0x9110).pc = 0x202 := by decide

/-! ### ALU and register instructions (section 2.4) -/

theorem test_ldImm : (run1 State.reset 0x6A2B).reg 0xA = 0x2B ∧ (run1 State.reset 0x6FFF).reg 0xF = 0xFF := by decide

theorem test_addImm :
    (run1 (regs [(0, 0xFF), (15, 0x55)]) 0x7001).reg 0 = 0 ∧ (run1 (regs [(0, 0xFF), (15, 0x55)]) 0x7001).reg 15 = 0x55 ∧
    (run1 (regs [(15, 0xFF)]) 0x7F01).reg 15 = 0 := by decide

theorem test_ldReg : (run1 (regs [(3, 0x77)]) 0x8130).reg 1 = 0x77 := by decide

theorem test_orReg :
    (run1 (regs [(1, 0x0F), (2, 0xF0), (15, 0x55)]) 0x8121).reg 1 = 0xFF ∧
    (run1 (regs [(1, 0x0F), (2, 0xF0), (15, 0x55)]) 0x8121).reg 15 = 0x55 := by decide

theorem test_andReg : (run1 (regs [(1, 0x3C), (2, 0x0F)]) 0x8122).reg 1 = 0x0C := by decide

theorem test_xorReg : (run1 (regs [(1, 0x3C), (2, 0x0F)]) 0x8123).reg 1 = 0x33 ∧ (run1 (regs [(1, 0x3C)]) 0x8113).reg 1 = 0 := by
  decide

/-- The result `V[x]` and the final `VF` of an instruction. -/
def res (s : State) (w : Nat) (x : RegIdx) : Byte × Byte := ((run1 s w).reg x, (run1 s w).reg 15)

theorem test_addReg :
    res (regs [(0, 0xFF), (1, 0x01)]) 0x8014 0 = (0x00, 0x01) ∧ res (regs [(0, 0x7F), (1, 0x80)]) 0x8014 0 = (0xFF, 0x00) ∧
    res (regs [(1, 0x80)]) 0x8114 1 = (0x00, 0x01) := by decide

theorem test_addReg_vf :
    res (regs [(1, 0x10), (15, 0x05)]) 0x81F4 1 = (0x15, 0x00) ∧ res (regs [(15, 0xF0), (1, 0x20)]) 0x8F14 15 = (0x10, 0x10) ∧
    res (regs [(15, 0x90)]) 0x8FF4 15 = (0x20, 0x20) := by decide

theorem test_subReg :
    res (regs [(0, 0x01), (1, 0x02)]) 0x8015 0 = (0xFF, 0x01) ∧ res (regs [(0, 0x05), (1, 0x03)]) 0x8015 0 = (0x02, 0x00) ∧
    res (regs [(0, 0x05), (1, 0x05)]) 0x8015 0 = (0x00, 0x00) := by decide

theorem test_subReg_vf :
    res (regs [(1, 0x03), (15, 0x05)]) 0x81F5 1 = (0x02, 0x01) ∧ res (regs [(15, 0x03), (1, 0x05)]) 0x8F15 15 = (0xFC, 0xFC) ∧
    res (regs [(15, 0x42)]) 0x8FF5 15 = (0x00, 0x00) := by decide

theorem test_shrReg :
    res (regs [(0, 0x05)]) 0x8006 0 = (0x02, 0x01) ∧ res (regs [(1, 0x04), (2, 0xFF)]) 0x8126 1 = (0x02, 0x00) ∧
    res (regs [(15, 0x03), (0, 0x55)]) 0x8F06 15 = (0x00, 0x00) := by decide

theorem test_subnReg :
    res (regs [(0, 0x01), (1, 0x03)]) 0x8017 0 = (0x02, 0x01) ∧ res (regs [(0, 0x03), (1, 0x01)]) 0x8017 0 = (0xFE, 0x00) ∧
    res (regs [(0, 0x04), (1, 0x04)]) 0x8017 0 = (0x00, 0x00) := by decide

theorem test_subnReg_vf :
    res (regs [(1, 0x02), (15, 0x05)]) 0x81F7 1 = (0xFF, 0x01) ∧ res (regs [(15, 0x02), (1, 0x05)]) 0x8F17 15 = (0x04, 0x04) ∧
    res (regs [(15, 0x42)]) 0x8FF7 15 = (0x00, 0x00) := by decide

theorem test_shlReg :
    res (regs [(0, 0x81)]) 0x800E 0 = (0x02, 0x80) ∧ res (regs [(0, 0x40)]) 0x800E 0 = (0x80, 0x00) ∧
    res (regs [(15, 0x80)]) 0x8F0E 15 = (0x00, 0x00) := by decide

theorem test_shlReg_normalized :
    res { regs [(0, 0x81)] with cfg := { defaultConfig with shiftFlagNormalize := true } } 0x800E 0 = (0x02, 0x01) ∧
    res { regs [(15, 0x80)] with cfg := { defaultConfig with shiftFlagNormalize := true } } 0x8F0E 15 = (0x02, 0x02) := by
  decide

/-! ### Index, computed jump, random, draw (section 2.5) -/

theorem test_ldI : (run1 State.reset 0xA300).i = 0x300 ∧ (run1 State.reset 0xAFFF).i = 0xFFF := by decide

theorem test_jpV0 : (run1 (regs [(0, 0x04)]) 0xB300).pc = 0x304 ∧ (run1 (regs [(0, 0xFF)]) 0xBFFF).pc = 0x10FE := by decide

theorem test_rnd :
    (run1 { State.reset with inputs := [input 0xA7 [] none] } 0xC30F).reg 3 = 0x07 ∧
    (run1 { State.reset with inputs := [input 0xFF [] none] } 0xC300).reg 3 = 0x00 := by decide

/-- A state ready to draw: I = 0x300, the sprite there, V0 the column, V1 the row, an edge setting. -/
def drawing (e : DrawEdge) (sprite : List Byte) (col row : Byte) : State :=
  poke { regs [(0, col), (1, row)] with i := 0x300, cfg := { defaultConfig with drawEdge := e } } 0x300 sprite

theorem test_drw_collision :
    let s1 := run1 (drawing .wrap [0x80] 0 0) 0xD011
    let s2 := run1 { s1 with pc := 0x200 } 0xD011
    (s1.pixel 0 0, s1.reg 15) = (true, 0) ∧ (s2.pixel 0 0, s2.reg 15) = (false, 1) := by decide +kernel

theorem test_drw_edges :
    litColumns (run1 (drawing .wrap [0xF0] 62 0) 0xD011) 0 = [0, 1, 62, 63] ∧
    litColumns (run1 (drawing .clip [0xF0] 66 0) 0xD011) 0 = [] ∧
    litColumns (run1 (drawing .wrapStartClip [0xF0] 66 0) 0xD011) 0 = [2, 3, 4, 5] ∧
    latched (run1 (drawing .fault [0xF0] 62 0) 0xD011) = some (.drawOutOfRange 64 0, 0x200#16) := by decide +kernel

/-! ### Keys, timers, index arithmetic, memory blocks (section 2.6) -/

theorem test_skp :
    (run1 { regs [(2, 0x05)] with inputs := [input 0 [5] none] } 0xE29E).pc = 0x204 ∧
    (run1 { regs [(2, 0x05)] with inputs := [input 0 [] none] } 0xE29E).pc = 0x202 ∧
    latched (run1 (regs [(2, 0x10)]) 0xE29E) = some (.invalidKey 0x10, 0x200#16) := by decide

theorem test_sknp :
    (run1 { regs [(2, 0x05)] with inputs := [input 0 [] none] } 0xE2A1).pc = 0x204 ∧
    (run1 { regs [(2, 0x05)] with inputs := [input 0 [5] none] } 0xE2A1).pc = 0x202 ∧
    latched (run1 (regs [(2, 0x10)]) 0xE2A1) = some (.invalidKey 0x10, 0x200#16) := by decide

theorem test_ldVxDT :
    (run1 { State.reset with dt := 0x10 } 0xF307).reg 3 = 0x10 ∧ (run1 { State.reset with dt := 0x10 } 0xF307).dt = 0x0F := by
  decide

theorem test_ldVxK :
    let s := run1 { State.reset with inputs := [input 0 [] (some 5)] } 0xF40A
    s.paused = true ∧ s.w = 4 ∧ s.pc = 0x202 ∧ s.reg 4 = 0 := by decide

theorem test_ldDTVx : (run1 (regs [(1, 0x05)]) 0xF115).dt = 0x04 ∧ (run1 (regs [(1, 0x00)]) 0xF115).dt = 0x00 := by decide

theorem test_ldSTVx : (run1 (regs [(1, 0x01)]) 0xF118).st = 0x00 ∧ (run1 (regs [(1, 0xFF)]) 0xF118).st = 0xFE := by decide

theorem test_addI :
    (run1 { regs [(2, 0x01)] with i := 0x0FFF } 0xF21E).i = 0x1000 ∧ (run1 { regs [(2, 0x20)] with i := 0xFFF0 } 0xF21E).i = 0x0010 := by
  decide

theorem test_ldF : (run1 (regs [(0, 0x0A)]) 0xF029).i = 0x0032 ∧ (run1 (regs [(0, 0xFF)]) 0xF029).i = 0x04FB := by decide

theorem test_ldB :
    peek (run1 { regs [(5, 123)] with i := 0x300 } 0xF533) 0x300 4 = [1, 2, 3, 0] ∧
    latched (run1 { regs [(5, 0xFF)] with i := 0xFFE } 0xF533) = some (.memoryBounds 0x1000, 0x200#16) := by decide

theorem test_storeRegs :
    peek (run1 { regs [(0, 0x11), (1, 0x22), (2, 0x33), (3, 0x44), (4, 0x55)] with i := 0x400 } 0xF355) 0x400 5 =
      [0x11, 0x22, 0x33, 0x44, 0x00] ∧
    latched (run1 { State.reset with i := 0xFF8 } 0xFF55) = some (.memoryBounds 0x1000, 0x200#16) := by decide

theorem test_loadRegs :
    let s := run1 (poke { regs [(4, 0xAB)] with i := 0x400 } 0x400 [0x11, 0x22, 0x33, 0x44]) 0xF365
    [s.reg 0, s.reg 1, s.reg 2, s.reg 3, s.reg 4] = [0x11, 0x22, 0x33, 0x44, 0xAB] ∧ s.i = 0x400 := by decide

/-! ### The driver (T10, section 2.7), and the end of a run (R212) -/

/-- The launch state of a self-jump in a driver with ticks of two time units. -/
def driver : Driver := Driver.start (State.launch defaultConfig [0x12, 0x00]) 2

theorem test_driver_three_cycles :
    (driveFrame false 7 driver).core.cycles = 3 ∧ (driveFrame false 7 driver).acc = 1 ∧
    (driveFrame false 2 driver).core.cycles = 0 := by decide +kernel

theorem test_run_ends_at_self_jump : driver.core.runEnded = true ∧ State.reset.runEnded = false := by decide +kernel

/-! ### Witnesses: for each statement of Certificates/Slice0/Obligations.lean with hypotheses, a state and operands
that meet them all, at the boundary values of its clauses -/
open Sys2Proof.Claims

/-- A state about to execute a word. -/
def about (s : State) (w : Nat) : State := s.withFetchWord 16 w

/-- A core in a subroutine. -/
def inCall : State := { State.reset with stack := [0x202], pc := 0x300 }

/-- A paused core with the key event given. -/
def waiting (event : Option Key) : State :=
  { State.reset with paused := true, w := 4, dt := 1, inputs := [input 0 [] event] }

/-- A state whose stack holds `k` return addresses. -/
def deep (k : Nat) : State := { State.reset with stack := List.replicate k 0x1000, pc := 0x300 }

theorem witness_DecodeInvertsEncode : (Instr.drw 0xF#4 0x0#4 0xF#4).WellFormed = true := by decide

theorem witness_EncodeInvertsDecode : decode 0xDF0F#16 = .ok (.drw 0xF#4 0x0#4 0xF#4) := by decide

theorem witness_DecodeFollowsOpcodeTable :
    decode 0xFF65#16 = .ok (.loadRegs 0xF#4) ∧ (Instr.loadRegs 0xF#4).row ∈ opcodeTable ∧
    (Instr.loadRegs 0xF#4).row.selects 0xFF65#16 = true := by decide

theorem witness_StepRunsTheDecodedInstruction :
    let s := about { State.reset with pc := 0xFFE } 0x6A2B
    s.fault = none ∧ s.paused = false ∧ s.pc.toNat + 1 < 4096 ∧
    decode (s.byte s.pc.toNat ++ s.byte (s.pc.toNat + 1)) = .ok (.ldImm 0xA#4 0x2B#8) ∧
    exec (.ldImm 0xA#4 0x2B#8) s = .next (s.aluImm .pass 0xA#4 0x2B#8).advance ∧
    (s.aluImm .pass 0xA#4 0x2B#8).advance.fault = none :=
  ⟨by decide, by decide, by decide, by decide, rfl, by decide⟩

theorem witness_StepRunsTheDecodedInstruction_fault :
    let s := about State.reset 0x00EE
    decode (s.byte s.pc.toNat ++ s.byte (s.pc.toNat + 1)) = .ok .ret ∧
    exec .ret s = .next (s.takeFault .stackUnderflow) ∧ (s.takeFault .stackUnderflow).fault ≠ none :=
  ⟨by decide, rfl, by decide⟩

theorem witness_PlacedWordRunsNext :
    let s := { waiting none with pc := 0xFFF, fault := some ⟨.stackUnderflow, 0x300⟩ }
    s.MemCanonical ∧ decodeTableWord 16 0xF40A = some (.ldVxK 0x4#4) := by decide

theorem witness_FetchOutsideMemoryFaults :
    let s := { State.reset with pc := 0xFFF }
    let s' := { State.reset with pc := 0x1000 }
    s.fault = none ∧ s.paused = false ∧ s.pc.toNat = 0xFFF ∧ s'.fault = none ∧ s'.paused = false ∧
    0x1000 ≤ s'.pc.toNat := by decide

theorem witness_IllegalWordFaults :
    State.reset.fault = none ∧ State.reset.paused = false ∧ State.reset.fetch = .ok 0x0000#16 ∧
    ∀ i, decode 0x0000#16 ≠ .ok i :=
  ⟨by decide, by decide, rfl, fun i h => by
    rw [show decode 0x0000#16 = .error (.illegal 0x0000#16) by decide] at h
    cases h⟩

theorem witness_HaltedCoreNeverChanges : (State.reset.takeFault .stackUnderflow).Halted = true := by decide

theorem witness_PausedCycleWaitsForKey :
    (waiting none).fault = none ∧ (waiting none).paused = true ∧ (waiting none).keyEvent = none ∧
    (waiting (some 0xF)).fault = none ∧ (waiting (some 0xF)).paused = true ∧
    (waiting (some 0xF)).keyEvent = some 0xF := by decide

theorem witness_PausedFlagSetAndCleared :
    let s := about State.reset 0xF40A
    s.fault = none ∧ step s = .next (tickOnce s) ∧ s.paused = false ∧ (tickOnce s).paused = true ∧
    s.nextInstr = some (.ldVxK 0x4#4) ∧
    step (waiting (some 7)) = .next (tickOnce (waiting (some 7))) ∧ (waiting (some 7)).paused = true ∧
    (tickOnce (waiting (some 7))).paused = false :=
  ⟨by decide, rfl, by decide, by decide, by decide, rfl, by decide, by decide⟩

theorem witness_FaultingCycleCommitsNothing :
    State.reset.fault = none ∧ step State.reset = .next (tickOnce State.reset) ∧ (tickOnce State.reset).fault ≠ none :=
  ⟨by decide, rfl, by decide⟩

theorem witness_TimersCountEveryLiveCycle :
    let s := about (regs [(1, 5)]) 0xF115
    let s' := about (regs [(1, 5)]) 0xF118
    s.fault = none ∧ step s = .next (tickOnce s) ∧ (tickOnce s).fault = none ∧ s.nextInstr = some (.ldDTVx 0x1#4) ∧
    s'.fault = none ∧ step s' = .next (tickOnce s') ∧ (tickOnce s').fault = none ∧
    s'.nextInstr = some (.ldSTVx 0x1#4) :=
  ⟨by decide, rfl, by decide, by decide, by decide, rfl, by decide, by decide⟩

theorem witness_KeyEventIgnoredUnlessPaused :
    let s := about { State.reset with inputs := [input 0 [] none] } 0xF40A
    s.paused = false ∧ s.inputs = input 0 [] none :: [] ∧ step s = .next (tickOnce s) ∧ (tickOnce s).fault = none :=
  ⟨by decide, by decide, rfl, by decide⟩

theorem witness_StepKeepsInvariant :
    (about inCall 0x00EE).Inv ∧ step (about inCall 0x00EE) = .next (tickOnce (about inCall 0x00EE)) :=
  ⟨⟨by decide, fun d h => by
      have hd : (16 : Nat) = d := Option.some.inj h
      subst hd
      exact (by decide : (1 : Nat) ≤ 16),
    fun a ha => by
      have ha' : a ∈ [(0x202 : Word)] := ha
      rw [List.mem_singleton.mp ha']
      decide,
    by decide⟩, rfl⟩

theorem witness_OnlyListedRegistersWritten :
    exec (.ldVxDT 0x3#4) State.reset = .next (State.reset.setReg 0x3#4 0#8).advance ∧
    (Instr.ldVxDT 0x3#4).writes 0x4#4 = false := ⟨rfl, by decide⟩

theorem witness_UnreadRegistersDoNotMatter :
    (Instr.ldVxK 0x3#4).reads 0x4#4 = false ∧ (Instr.ldVxK 0x3#4).writes 0x4#4 = false ∧
    exec (.ldVxK 0x3#4) State.reset = .next (State.advance { State.reset with paused := true, w := 0x3#4 }) :=
  ⟨by decide, by decide, rfl⟩

theorem witness_PcAdvancesUnlessSet :
    State.reset.fault = none ∧ exec (.seImm 0x0#4 0#8) State.reset = .next (State.reset.skipIf true) ∧
    (State.reset.skipIf true).fault = none ∧ (Instr.seImm 0x0#4 0#8).setsPc = false ∧
    (Instr.seImm 0x0#4 0#8).isSkip = true ∧ (Instr.ldI 0#12).setsPc = false ∧ (Instr.ldI 0#12).isSkip = false :=
  ⟨by decide, rfl, by decide, by decide, by decide, by decide, by decide⟩

theorem witness_SpecialStateWrittenOnlyAsListed :
    exec .cls State.reset = .next State.reset.displayClear.advance ∧
    exec (.ldI 0x300#12) State.reset = .next (State.advance { State.reset with i := 0x300 }) := ⟨rfl, rfl⟩

theorem witness_FaultKindsRaisedOnlyAsListed :
    State.reset.fault = none ∧ exec .ret State.reset = .next (State.reset.takeFault .stackUnderflow) ∧
    (State.reset.takeFault .stackUnderflow).fault = some { kind := .stackUnderflow, faultPc := 0x200#16 } ∧
    exec (.loadRegs 0x1#4) { State.reset with i := 0xFFF } =
      .next (State.takeFault { State.reset with i := 0xFFF } (.memoryBounds 0x1000)) ∧
    exec (.skp 0x2#4) (regs [(2, 0x10)]) = .next ((regs [(2, 0x10)]).takeFault (.invalidKey 0x10#8)) :=
  ⟨by decide, rfl, by decide, rfl, rfl⟩

theorem witness_CanonicalMemoryIsItsBytes :
    Memory.wf defaultConfig [(0x10, 0x00), (0xFFF, 0x01)] = true ∧
    ∀ a, readCell defaultConfig [(0x10, 0x00), (0xFFF, 0x01)] a = readCell defaultConfig [(0x10, 0x00), (0xFFF, 0x01)] a :=
  ⟨by decide, fun _ => rfl⟩

theorem witness_LaunchPlacesProgram : (List.replicate 3584 (0x12 : Byte)).length ≤ 3584 :=
  Nat.le_of_eq List.length_replicate

theorem witness_TooLargeProgramWritesNothing : 3584 < (List.replicate 3585 (0x12 : Byte)).length := by
  rw [List.length_replicate]
  decide

theorem witness_RetPopsReturnAddress : inCall.stack = 0x202 :: [] ∧ State.reset.stack = [] := by decide

theorem witness_CallPushesReturnAddress :
    (deep 15).cfg.stackDepth ≠ some (deep 15).stack.length ∧ (deep 16).cfg.stackDepth = some (deep 16).stack.length := by
  decide

theorem witness_SkipsOnRegisters :
    opField 0x5001#16 = 0x5#4 ∧ nField 0x5001#16 ≠ 0#4 ∧ opField 0x9FFF#16 = 0x9#4 ∧ nField 0x9FFF#16 ≠ 0#4 := by decide

theorem witness_SubSetsBorrow_SubnSetsComparison :
    let s := regs [(1, 0), (2, 1)]
    (1#8 = if (s.reg 0x2#4).toNat > (s.reg 0x1#4).toNat then 1#8 else 0#8) ∧
    (0#8 = if (s.reg 0x1#4).toNat > (s.reg 0x1#4).toNat then 1#8 else 0#8) ∧ 0x1#4 ≠ 0xF#4 ∧ 0x2#4 ≠ 0xF#4 := by decide

theorem witness_AddSetsCarry_ShrSetsBitShiftedOut :
    0x0#4 ≠ 0xF#4 ∧ 0x2#4 ≠ 0x0#4 ∧ 0x2#4 ≠ 0xF#4 ∧
    (regs [(0, 255), (1, 1)]).reg 0x0#4 = 0xFF#8 ∧ (regs [(0, 255), (1, 1)]).reg 0x1#4 = 0x01#8 := by decide

theorem witness_ShlSetsBitShiftedOut :
    State.reset.cfg.shiftFlagNormalize = false ∧
    { State.reset with cfg := { defaultConfig with shiftFlagNormalize := true } }.cfg.shiftFlagNormalize = true := by
  decide

theorem witness_RandomByteIsMasked : (waiting none).inputs = input 0 [] none :: [] := by decide

/-- The last sprite that fits: one row of eight set bits in the last byte of memory, at column 56 of row 31. -/
def lastSprite (e : DrawEdge) : State :=
  { poke (drawing e [] 56 31) 0xFFF [0xFF] with i := 0xFFF }

theorem witness_DrawTogglesExactlyTheSprite : DrawRuns (lastSprite .fault) 0x0#4 0x1#4 0x1#4 := by
  refine ⟨.inr (by decide), fun _ r c h => ?_⟩
  have h1 : r < 1 := h.1
  have h2 := h.2.1
  have h3 : ((lastSprite .fault).reg 0x0#4).toNat = 56 := by decide
  have h4 : ((lastSprite .fault).reg 0x1#4).toNat = 31 := by decide
  omega

theorem witness_DrawTogglesExactlyTheSprite_draws :
    Draws (lastSprite .fault) 0x0#4 0x1#4 0x1#4 63 31 ∧ (lastSprite .fault).pixel 63 31 = false :=
  ⟨⟨0, 7, by unfold SpriteBitSet; decide, ⟨by decide, by decide⟩⟩, by decide⟩

theorem witness_DrawingTwiceRestoresDisplay :
    0x0#4 ≠ 0xF#4 ∧ 0x1#4 ≠ 0xF#4 ∧ DrawRuns (lastSprite .wrap) 0x0#4 0x1#4 0x1#4 :=
  ⟨by decide, by decide, .inr (by decide), fun h => by cases h⟩

theorem witness_DrawingTwiceRestoresDisplay_draws :
    let s := lastSprite .wrap
    let t := s.commit ((s.drawSprite 0x0#4 0x1#4 0x1#4).map State.advance)
    0x0#4 ≠ 0xF#4 ∧ 0x1#4 ≠ 0xF#4 ∧ DrawRuns s 0x0#4 0x1#4 0x1#4 ∧ exec (.drw 0x0#4 0x1#4 0x1#4) s = .next t ∧
    t.reg 0xF#4 = 0#8 ∧ Draws s 0x0#4 0x1#4 0x1#4 63 31 :=
  ⟨by decide, by decide, ⟨.inr (by decide), fun h => by cases h⟩, rfl, by decide,
    0, 7, by unfold SpriteBitSet; decide, by decide, by decide⟩

/-- A sprite of no row draws no bit. -/
theorem witness_DrawingTwiceRestoresDisplay_empty :
    0x0#4 ≠ 0xF#4 ∧ 0x1#4 ≠ 0xF#4 ∧ DrawRuns State.reset 0x0#4 0x1#4 0x0#4 ∧
    ¬ ∃ px py, Draws State.reset 0x0#4 0x1#4 0x0#4 px py :=
  ⟨by decide, by decide, ⟨.inl rfl, fun h => by cases h⟩, fun ⟨_, _, _, _, h, _⟩ => absurd h.1 (Nat.not_lt_zero _)⟩

theorem witness_DrawFaultsBeforeToggling :
    let s := { drawing .fault [0x80] 63 0 with i := 0x1000 }
    let s' := { drawing .fault [0x80] 63 0 with i := 0xFFF }
    (0x1#4 ≠ 0#4 ∧ 4096 ≤ s.i.toNat) ∧ (s'.i.toNat < 4096 ∧ 4096 < s'.i.toNat + (0x2#4).toNat) := by decide

theorem witness_DrawFaultsBeforeToggling_offScreen :
    let s := drawing .fault [0xC0] 63 0
    SpriteInMemory s 0x1#4 ∧ s.cfg.drawEdge = .fault ∧ SpriteBitSet s 0x1#4 0 1 ∧
    (64 ≤ (s.reg 0x0#4).toNat + 1 ∨ 32 ≤ (s.reg 0x1#4).toNat + 0) ∧
    (∀ r' c', SpriteBitSet s 0x1#4 r' c' → (r' < 0 ∨ (r' = 0 ∧ c' < 1)) →
      (s.reg 0x0#4).toNat + c' < 64 ∧ (s.reg 0x1#4).toNat + r' < 32) := by
  refine ⟨.inr (by decide), by decide, by unfold SpriteBitSet; decide, .inl (by decide), fun r c h h' => ?_⟩
  have h1 : r < 1 := h.1
  have h3 : ((drawing .fault [0xC0] 63 0).reg 0x0#4).toNat = 63 := by decide
  have h4 : ((drawing .fault [0xC0] 63 0).reg 0x1#4).toNat = 0 := by decide
  show ((drawing .fault [0xC0] 63 0).reg 0x0#4).toNat + c < 64 ∧ ((drawing .fault [0xC0] 63 0).reg 0x1#4).toNat + r < 32
  omega

theorem witness_KeySkips :
    ((regs [(2, 15)]).reg 0x2#4).toNat < 16 ∧ 16 ≤ ((regs [(2, 16)]).reg 0x2#4).toNat := by decide

theorem witness_ReadDelayTimer : (about { State.reset with dt := 0x10 } 0xF307).nextInstr = some (.ldVxDT 0x3#4) := by decide

theorem witness_SetTimers :
    (about (regs [(1, 1)]) 0xF115).nextInstr = some (.ldDTVx 0x1#4) ∧
    (about (regs [(1, 1)]) 0xF118).nextInstr = some (.ldSTVx 0x1#4) := by decide

theorem witness_StoreDecimalDigits :
    let s := { State.reset with i := 0xFFD }
    let s' := { State.reset with i := 0xFFE }
    s.MemCanonical ∧ s.i.toNat + 2 < 4096 ∧ 4096 ≤ s'.i.toNat + 2 := by decide

theorem witness_StoreRegisterBlock_LoadRegisterBlock :
    let s := { State.reset with i := 0xFF0 }
    let s' := { State.reset with i := 0xFF1 }
    s.MemCanonical ∧ s.i.toNat + (0xF#4).toNat < 4096 ∧ 4096 ≤ s'.i.toNat + (0xF#4).toNat ∧
    (0xF#4).toNat ≤ (0xF#4).toNat ∧ (0xE#4).toNat < (0xF#4).toNat := by decide

theorem witness_StoreThenLoadRestoresRegisters :
    let s := { State.reset with i := 0xFF0 }
    s.MemCanonical ∧ s.i.toNat + (0xF#4).toNat < 4096 ∧ (0x0#4).toNat ≤ (0xF#4).toNat := by decide

theorem witness_StoredWordIsFetched :
    let s := { State.reset with i := 0xFF0 }
    s.MemCanonical ∧ (0xE#4).toNat < (0xF#4).toNat ∧ s.i.toNat + (0xF#4).toNat < 4096 ∧
    (0xFFE#16).toNat = s.i.toNat + (0xE#4).toNat := by decide

theorem witness_DriverRunsWholeTicks :
    driver.closed = false ∧ 0 < driver.tick ∧ (driveFrame false 7 driver).closed = false ∧
    (driveFrame false 0 driver).closed = false := by decide +kernel

end Sys2Proof.Tests
end

section
/-! SUPPORT. The registers an instruction does not name (spec/10_state.md R22): what each shared operation leaves in
them, and that each commutes with a write to one of them. -/
namespace Sys2Proof.Machine

variable {s t : State} {j x y : RegIdx} {b : Byte} {α : Type}

/-! ### The registers an operation does not write -/

theorem writeFlag_reg {f : Option Byte} (hf : f = none ∨ j ≠ vf) : (s.writeFlag f).reg j = s.reg j := by
  cases f with
  | none => rfl
  | some f => exact reg_setReg_other s f (hf.resolve_left nofun)

theorem aluReg_reg {op : AluOp} (hx : j ≠ x) (hf : (∀ n a c, aluFlag n op a c = none) ∨ j ≠ vf) :
    (s.aluReg op x y).reg j = s.reg j :=
  (reg_setReg_other _ _ hx).trans (writeFlag_reg (hf.imp_left fun h => h _ _ _))

theorem addWithCarry_reg (hx : j ≠ x) (hf : j ≠ vf) : (s.addWithCarry x y).reg j = s.reg j :=
  (reg_setReg_other _ _ hx).trans (writeFlag_reg (.inr hf))

theorem writeBytes_reg {a : Nat} {bs : List Byte} (h : s.writeBytes a bs = .ok t) : t.reg j = s.reg j := by
  rw [writeBytes_onlyMem h]
  rfl

/-- A draw that faults commits nothing; one that succeeds changes the display and then the flag register. -/
theorem drawSprite_ok {n : Nibble} (h : s.drawSprite x y n = .ok t) :
    ∃ fb f, t = State.setReg { s with fb := fb } vf f := by
  simp only [State.drawSprite] at h
  split at h
  · cases h
  · split at h
    · cases h
    · exact ⟨_, _, (Except.ok.inj h).symm⟩

/-- A block read answers as many bytes as were asked for. -/
theorem readBytes_length {a n : Nat} {bs : List Byte} (h : s.readBytes a n = .ok bs) : bs.length = n := by
  by_cases hn : n = 0 ∨ a + n ≤ memSize
  · rw [readBytes_inside s hn] at h
    simp [← Except.ok.inj h]
  · rw [readBytes_outside s (by omega) (by omega)] at h
    cases h

/-- A block load from V0 up leaves the registers above the block alone. -/
theorem setRegsFrom_reg_above {bs : List Byte} (h : bs.length ≤ j.toNat) : (s.setRegsFrom 0 bs).reg j = s.reg j := by
  rw [setRegsFrom_reg s 0 bs (by omega), dif_neg (by omega)]

/-- The end of an execute step keeps a register that its result keeps, since a fault keeps them all. -/
theorem commit_map_reg {r : Except Fault α} {g : α → State} (h : ∀ a, r = .ok a → (g a).reg j = s.reg j) :
    (s.commit (r.map g)).reg j = s.reg j := by
  cases r with
  | error f => rfl
  | ok a => exact h a rfl

/-- A register outside the written ones of an instruction's row of R22 holds after exec what it held before. -/
theorem exec_reg_of_not_writes (i : Instr) (h : exec i s = .next t) (hw : i.writes j = false) :
    t.reg j = s.reg j := by
  cases i
  all_goals obtain rfl := Host.Outcome.next.inj h
  case cls | jp | seImm | sneImm | seReg | sneReg | ldI | jpV0 | ldVxK | ldDTVx | ldSTVx | addI | ldF => rfl
  case ldImm | addImm | rnd | ldVxDT => exact reg_setReg_other _ _ (ne_of_beq_false hw)
  case ldReg | orReg | andReg | xorReg => exact aluReg_reg (ne_of_beq_false hw) (.inl fun _ _ _ => rfl)
  case subReg | shrReg | subnReg | shlReg =>
    obtain ⟨hx, hf⟩ := Bool.or_eq_false_iff.mp hw
    exact aluReg_reg (ne_of_beq_false hx) (.inr (ne_of_beq_false hf))
  case addReg =>
    obtain ⟨hx, hf⟩ := Bool.or_eq_false_iff.mp hw
    exact addWithCarry_reg (ne_of_beq_false hx) (ne_of_beq_false hf)
  case ret =>
    obtain ⟨-, h⟩ | ⟨v, rest, -, h⟩ := pop_cases s <;> rw [h] <;> rfl
  case call =>
    obtain ⟨-, h⟩ | ⟨-, h⟩ := push_cases s (s.pc + 2) <;> rw [h] <;> rfl
  case skp | sknp => exact commit_map_reg fun _ _ => rfl
  case ldB | storeRegs => exact commit_map_reg fun u h => (advance_reg u j).trans (writeBytes_reg h)
  case drw =>
    refine commit_map_reg fun u h => ?_
    obtain ⟨fb, f, rfl⟩ := drawSprite_ok h
    exact reg_setReg_other _ _ (ne_of_beq_false hw)
  case loadRegs x =>
    refine commit_map_reg fun bs h => setRegsFrom_reg_above ?_
    have hj : ¬ j.toNat ≤ x.toNat := of_decide_eq_false hw
    rw [readBytes_length h]
    omega

/-! ### The operations commute with a write to a register they do not name -/

theorem setReg_comm (h : j ≠ x) (b c : Byte) : (s.setReg j b).setReg x c = (s.setReg x c).setReg j b := by
  have hn : j.toNat ≠ x.toNat := fun e => h (BitVec.eq_of_toNat_eq e)
  simp only [State.setReg, Vector.set_comm _ _ hn]

theorem writeFlag_setReg {f : Option Byte} (hf : f = none ∨ j ≠ vf) :
    (s.setReg j b).writeFlag f = (s.writeFlag f).setReg j b := by
  cases f with
  | none => rfl
  | some f => exact setReg_comm (hf.resolve_left nofun) b f

theorem aluImm_setReg {op : AluOp} {nn : Byte} (hx : j ≠ x) :
    (s.setReg j b).aluImm op x nn = (s.aluImm op x nn).setReg j b := by
  simp only [State.aluImm, reg_setReg_other _ _ hx.symm, setReg_comm hx]

theorem aluReg_setReg {op : AluOp} (hx : j ≠ x) (hy : j ≠ y) (hf : (∀ n a c, aluFlag n op a c = none) ∨ j ≠ vf) :
    (s.setReg j b).aluReg op x y = (s.aluReg op x y).setReg j b := by
  have hflag := writeFlag_setReg (s := s) (b := b)
    (hf.imp_left fun h => h s.cfg.shiftFlagNormalize (s.reg x) (s.reg y))
  simp only [State.aluReg, setReg_cfg, reg_setReg_other _ _ hx.symm, reg_setReg_other _ _ hy.symm, hflag,
    setReg_comm hx]

theorem addWithCarry_setReg (hx : j ≠ x) (hy : j ≠ y) (hf : j ≠ vf) :
    (s.setReg j b).addWithCarry x y = (s.addWithCarry x y).setReg j b := by
  simp only [State.addWithCarry, setReg_cfg, reg_setReg_other _ _ hx.symm, reg_setReg_other _ _ hy.symm,
    writeFlag_setReg (.inr hf), setReg_comm hx]

theorem readBytes_setReg (a n : Nat) : (s.setReg j b).readBytes a n = s.readBytes a n := by
  induction n generalizing a with
  | zero => rfl
  | succ n ih => simp only [State.readBytes, ih]; rfl

theorem writeBytes_setReg (a : Nat) (bs : List Byte) :
    (s.setReg j b).writeBytes a bs = (s.writeBytes a bs).map fun t => t.setReg j b := by
  induction bs generalizing a s with
  | nil => rfl
  | cons c bs ih =>
    by_cases ha : a < memSize
    · simp only [State.writeBytes, memWrite_inside _ c ha]
      exact ih (s := { s with mem := writeCell s.cfg s.mem a c }) (a + 1)
    · simp only [State.writeBytes, memWrite_outside _ c (Nat.le_of_not_lt ha)]
      rfl

theorem regBlock_setReg (h : x.toNat < j.toNat) : (s.setReg j b).regBlock x = s.regBlock x := by
  simp only [State.regBlock, setReg_v, Vector.toList_set]
  exact List.take_set_of_le h

theorem setRegsFrom_setReg {k : Nat} {bs : List Byte} (h : k + bs.length ≤ j.toNat) :
    (s.setReg j b).setRegsFrom k bs = (s.setRegsFrom k bs).setReg j b := by
  induction bs generalizing s k with
  | nil => rfl
  | cons c bs ih =>
    rw [List.length_cons] at h
    have hjk : j ≠ BitVec.ofNat 4 k := by
      intro e
      have : j.toNat = k % 16 := by rw [e, BitVec.toNat_ofNat]
      omega
    rw [State.setRegsFrom, State.setRegsFrom, setReg_comm hjk, ih (by omega)]

theorem drawSprite_setReg {n : Nibble} (hx : j ≠ x) (hy : j ≠ y) (hf : j ≠ vf) :
    (s.setReg j b).drawSprite x y n = (s.drawSprite x y n).map fun t => t.setReg j b := by
  simp only [State.drawSprite, setReg_cfg, setReg_i, setReg_fb, reg_setReg_other _ _ hx.symm,
    reg_setReg_other _ _ hy.symm, readBytes_setReg]
  split
  · rfl
  · split
    · rfl
    · exact congrArg Except.ok (setReg_comm (s := { s with fb := Prod.fst _ }) hf b _)

theorem pop_setReg : (s.setReg j b).pop = s.pop.map fun p => (p.1, p.2.setReg j b) := by
  simp only [State.pop, setReg_stack]
  cases s.stack <;> rfl

theorem push_setReg (v : Word) : (s.setReg j b).push v = (s.push v).map fun t => t.setReg j b := by
  have hfull : (s.setReg j b).stackFull = s.stackFull := rfl
  simp only [State.push, hfull]
  split <;> rfl

/-- An execute step that computes a value without reading `V[j]` and builds its new state from it. -/
theorem commit_map_setReg {r : Except Fault α} {g g' : α → State}
    (h : ∀ a, r = .ok a → g' a = (g a).setReg j b) :
    (s.setReg j b).commit (r.map g') = (s.commit (r.map g)).setReg j b := by
  cases r with
  | error f => rfl
  | ok a => exact h a rfl

/-- An execute step that ends with the PC advance of the state an operation answers. -/
theorem commit_advance_setReg (r : Except Fault State) :
    (s.setReg j b).commit ((r.map fun t => t.setReg j b).map State.advance) =
      (s.commit (r.map State.advance)).setReg j b := by
  cases r <;> rfl

/-- Changing a register that an instruction's row of R22 does not name, before exec or after it, is the same. -/
theorem exec_setReg_of_not_named (i : Instr) (hr : i.reads j = false) (hw : i.writes j = false)
    (h : exec i s = .next t) : exec i (s.setReg j b) = .next (t.setReg j b) := by
  cases i
  all_goals
    obtain rfl := Host.Outcome.next.inj h
    refine congrArg Host.Outcome.next ?_
  case cls | jp | ldI | ldVxK => rfl
  case seImm | sneImm | jpV0 | ldDTVx | ldSTVx | addI | ldF =>
    rw [reg_setReg_other _ _ (ne_of_beq_false hr).symm]
    rfl
  case seReg | sneReg =>
    obtain ⟨hx, hy⟩ := Bool.or_eq_false_iff.mp hr
    rw [reg_setReg_other _ _ (ne_of_beq_false hx).symm, reg_setReg_other _ _ (ne_of_beq_false hy).symm]
    rfl
  case rnd | ldVxDT => exact congrArg State.advance (setReg_comm (ne_of_beq_false hw) b _)
  case ldImm | addImm => exact congrArg State.advance (aluImm_setReg (ne_of_beq_false hw))
  case ldReg =>
    exact congrArg State.advance
      (aluReg_setReg (ne_of_beq_false hw) (ne_of_beq_false hr) (.inl fun _ _ _ => rfl))
  case orReg | andReg | xorReg =>
    obtain ⟨hx, hy⟩ := Bool.or_eq_false_iff.mp hr
    exact congrArg State.advance
      (aluReg_setReg (ne_of_beq_false hx) (ne_of_beq_false hy) (.inl fun _ _ _ => rfl))
  case subReg | subnReg =>
    obtain ⟨hx, hy⟩ := Bool.or_eq_false_iff.mp hr
    obtain ⟨-, hf⟩ := Bool.or_eq_false_iff.mp hw
    exact congrArg State.advance
      (aluReg_setReg (ne_of_beq_false hx) (ne_of_beq_false hy) (.inr (ne_of_beq_false hf)))
  case addReg =>
    obtain ⟨hx, hy⟩ := Bool.or_eq_false_iff.mp hr
    obtain ⟨-, hf⟩ := Bool.or_eq_false_iff.mp hw
    exact congrArg State.advance
      (addWithCarry_setReg (ne_of_beq_false hx) (ne_of_beq_false hy) (ne_of_beq_false hf))
  case shrReg | shlReg =>
    obtain ⟨hx, hf⟩ := Bool.or_eq_false_iff.mp hw
    exact congrArg State.advance
      (aluReg_setReg (ne_of_beq_false hx) (ne_of_beq_false hx) (.inr (ne_of_beq_false hf)))
  case ret =>
    rw [pop_setReg]
    cases s.pop <;> rfl
  case call =>
    rw [setReg_pc, push_setReg]
    cases s.push (s.pc + 2) <;> rfl
  case skp | sknp =>
    rw [reg_setReg_other _ _ (ne_of_beq_false hr).symm]
    exact commit_map_setReg fun _ _ => rfl
  case ldB =>
    rw [reg_setReg_other _ _ (ne_of_beq_false hr).symm, writeBytes_setReg]
    exact commit_advance_setReg _
  case storeRegs x =>
    have hj : ¬ j.toNat ≤ x.toNat := of_decide_eq_false hr
    rw [regBlock_setReg (Nat.lt_of_not_le hj), writeBytes_setReg]
    exact commit_advance_setReg _
  case drw =>
    obtain ⟨hx, hy⟩ := Bool.or_eq_false_iff.mp hr
    rw [drawSprite_setReg (ne_of_beq_false hx) (ne_of_beq_false hy) (ne_of_beq_false hw)]
    exact commit_advance_setReg _
  case loadRegs x =>
    have hj : ¬ j.toNat ≤ x.toNat := of_decide_eq_false hw
    rw [readBytes_setReg]
    refine commit_map_setReg fun bs h => congrArg State.advance (setRegsFrom_setReg ?_)
    rw [readBytes_length h]
    omega

/-- Settles O19, by the registers each instruction's operations write. -/
theorem onlyListedRegistersWritten : Obligations.OnlyListedRegistersWritten :=
  fun i _ _ h _ hw => exec_reg_of_not_writes i h hw

/-- Settles O20: each instruction's operations commute with a write to a register its row of R22 does not name. -/
theorem unreadRegistersDoNotMatter : Obligations.UnreadRegistersDoNotMatter :=
  fun i _ _ _ _ hr hw h => exec_setReg_of_not_named i hr hw h

end Sys2Proof.Machine
end

section
/-! SUPPORT. The canonical form of memory (spec/20_memory.md R50) is determined by what the addresses read: the first
listed cell is the lowest address that does not read as reset left it. -/
namespace Sys2Proof.Machine

variable {c : Config} {m m' : Memory} {a k lo lo' : Nat} {v v' : Byte}

@[simp] theorem readCell_cons_same : readCell c ((k, v) :: m) k = v := if_pos rfl

theorem readCell_cons_other (h : a ≠ k) : readCell c ((k, v) :: m) a = readCell c m a := if_neg h

/-- An address that does not read as reset left it is not below where the canonical form starts. -/
theorem le_of_readCell_ne_resetByte (hm : memWfFrom c lo m = true) (ha : readCell c m a ≠ resetByte c a) : lo ≤ a :=
  Nat.le_of_not_lt fun hlt => ha (readCell_of_lt hm hlt)

/-- A canonical memory that reads as one whose first cell is at `k` can start no later than `k`. -/
theorem le_first_of_same_reads (hm : memWfFrom c lo ((k, v) :: m) = true) (hm' : memWfFrom c lo' m' = true)
    (h : ∀ a, readCell c ((k, v) :: m) a = readCell c m' a) : lo' ≤ k := by
  obtain ⟨-, -, hv, -⟩ := memWfFrom_cons.mp hm
  refine le_of_readCell_ne_resetByte hm' ?_
  rwa [← h k, readCell_cons_same]

/-- The canonical form of a nonempty memory holds from its own first address up. -/
theorem memWfFrom_first (hm : memWfFrom c lo ((k, v) :: m) = true) : memWfFrom c k ((k, v) :: m) = true :=
  memWfFrom_cons.mpr ⟨le_rfl, (memWfFrom_cons.mp hm).2⟩

/-- Behind a first cell at the same address the reads agree too: up to that address both rests read as reset. -/
theorem same_reads_tail (hm : memWfFrom c (k + 1) m = true) (hm' : memWfFrom c (k + 1) m' = true)
    (h : ∀ a, readCell c ((k, v) :: m) a = readCell c ((k, v') :: m') a) (a : Nat) :
    readCell c m a = readCell c m' a := by
  by_cases ha : a < k + 1
  · rw [readCell_of_lt hm ha, readCell_of_lt hm' ha]
  · have hak : a ≠ k := by omega
    have hread := h a
    rwa [readCell_cons_other hak, readCell_cons_other hak] at hread

/-- Two canonical memories that read the same everywhere are equal: their first cells are at the same address. -/
theorem memWfFrom_ext (hm : memWfFrom c lo m = true) (hm' : memWfFrom c lo m' = true)
    (h : ∀ a, readCell c m a = readCell c m' a) : m = m' := by
  induction m generalizing lo m' with
  | nil =>
    cases m' with
    | nil => rfl
    | cons p' rest' =>
      have hle := le_first_of_same_reads (lo' := p'.1 + 1) hm' rfl fun a => (h a).symm
      omega
  | cons p rest ih =>
    obtain ⟨k, v⟩ := p
    cases m' with
    | nil =>
      have hle := le_first_of_same_reads (lo' := k + 1) hm rfl h
      omega
    | cons p' rest' =>
      obtain ⟨k', v'⟩ := p'
      obtain rfl : k = k' := Nat.le_antisymm
        (le_first_of_same_reads hm' (memWfFrom_first hm) fun a => (h a).symm)
        (le_first_of_same_reads hm (memWfFrom_first hm') h)
      obtain rfl : v = v' := by simpa using h k
      obtain ⟨-, -, -, hrest⟩ := memWfFrom_cons.mp hm
      obtain ⟨-, -, -, hrest'⟩ := memWfFrom_cons.mp hm'
      rw [ih hrest hrest' (same_reads_tail hrest hrest' h)]

/-- Settles O24, by extensionality of the canonical form from address 0 up. -/
theorem canonicalMemoryIsItsBytes : Obligations.CanonicalMemoryIsItsBytes :=
  fun _ _ _ hm hm' h => memWfFrom_ext hm hm' h

end Sys2Proof.Machine
end

section
/-! SUPPORT. The decoder and the encoder are inverse, and both follow the masks of the opcode table
(spec/30_encoding.md R70-R79). The link is `Instr.withFields`: the instruction of a row whose operands are cut from a
word, which a word's decoding is and which the encoder takes back to the word. -/
namespace Sys2Proof

variable {w : Word} {i : Instr} {op n : Nibble} {nn : Byte}

/-! ### A word is made of its fields (R71, R72) -/

theorem encodeA_fields (hop : opField w = op) : encodeA op (addrField w) = w := by
  subst hop
  apply BitVec.eq_of_toNat_eq
  rw [encodeA_toNat, opField_toNat, addrField_toNat]
  omega

theorem encodeXNN_fields (hop : opField w = op) (hnn : nnField w = nn) : encodeXNN op (xField w) nn = w := by
  subst hop hnn
  apply BitVec.eq_of_toNat_eq
  rw [encodeXNN_toNat, opField_toNat, xField_toNat, nnField_toNat]
  omega

theorem encodeXYN_fields (hop : opField w = op) (hn : nField w = n) : encodeXYN op (xField w) (yField w) n = w := by
  subst hop hn
  apply BitVec.eq_of_toNat_eq
  rw [encodeXYN_toNat, opField_toNat, xField_toNat, yField_toNat, nField_toNat]
  omega

/-! ### The masks of the table keep whole fields (R75) -/

theorem and_nibbleMask (a : Nibble) : a &&& 0xF#4 = a := BitVec.and_allOnes

theorem and_byteMask (b : Byte) : b &&& 0xFF#8 = b := BitVec.and_allOnes

theorem and_mask_op : w &&& 0xF000#16 = encodeA (opField w) 0#12 := calc
  w &&& 0xF000#16 = (opField w ++ addrField w) &&& (0xF#4 ++ 0#12) := congrArg (· &&& _) (encodeA_fields rfl).symm
  _ = encodeA (opField w) 0#12 := by rw [BitVec.and_append, and_nibbleMask, BitVec.and_zero, encodeA]

theorem and_mask_op_nn : w &&& 0xF0FF#16 = encodeXNN (opField w) 0#4 (nnField w) := calc
  w &&& 0xF0FF#16 = (opField w ++ xField w ++ nnField w) &&& (0xF#4 ++ 0#4 ++ 0xFF#8) :=
    congrArg (· &&& _) (encodeXNN_fields rfl rfl).symm
  _ = encodeXNN (opField w) 0#4 (nnField w) := by
    rw [BitVec.and_append, BitVec.and_append, and_nibbleMask, BitVec.and_zero, and_byteMask, encodeXNN]

theorem and_mask_op_n : w &&& 0xF00F#16 = encodeXYN (opField w) 0#4 0#4 (nField w) := calc
  w &&& 0xF00F#16 = (opField w ++ xField w ++ yField w ++ nField w) &&& (0xF#4 ++ 0#4 ++ 0#4 ++ 0xF#4) :=
    congrArg (· &&& _) (encodeXYN_fields rfl rfl).symm
  _ = encodeXYN (opField w) 0#4 0#4 (nField w) := by
    simp only [BitVec.and_append, and_nibbleMask, BitVec.and_zero, encodeXYN]

theorem selects_op : Row.selects ⟨0xF000#16, encodeA op 0#12⟩ w = true ↔ opField w = op := by
  rw [Row.selects, beq_iff_eq, and_mask_op]
  exact ⟨fun h => by simpa using congrArg opField h, fun h => by rw [h]⟩

theorem selects_op_nn :
    Row.selects ⟨0xF0FF#16, encodeXNN op 0#4 nn⟩ w = true ↔ opField w = op ∧ nnField w = nn := by
  rw [Row.selects, beq_iff_eq, and_mask_op_nn]
  exact ⟨fun h => ⟨by simpa using congrArg opField h, by simpa using congrArg nnField h⟩,
    fun ⟨hop, hnn⟩ => by rw [hop, hnn]⟩

theorem selects_op_n :
    Row.selects ⟨0xF00F#16, encodeXYN op 0#4 0#4 n⟩ w = true ↔ opField w = op ∧ nField w = n := by
  rw [Row.selects, beq_iff_eq, and_mask_op_n]
  exact ⟨fun h => ⟨by simpa using congrArg opField h, by simpa using congrArg nField h⟩,
    fun ⟨hop, hn⟩ => by rw [hop, hn]⟩

theorem selects_word {b : Word} : Row.selects ⟨0xFFFF#16, b⟩ w = true ↔ w = b := by
  have hall : w &&& 0xFFFF#16 = w := BitVec.and_allOnes
  rw [Row.selects, beq_iff_eq, hall]

theorem encodeXNN_of_selects (h : Row.selects ⟨0xF0FF#16, encodeXNN op 0#4 nn⟩ w = true) :
    encodeXNN op (xField w) nn = w :=
  encodeXNN_fields (selects_op_nn.mp h).1 (selects_op_nn.mp h).2

theorem encodeXYN_of_selects (h : Row.selects ⟨0xF00F#16, encodeXYN op 0#4 0#4 n⟩ w = true) :
    encodeXYN op (xField w) (yField w) n = w :=
  encodeXYN_fields (selects_op_n.mp h).1 (selects_op_n.mp h).2

/-! ### The instruction of a row with a word's operands -/

/-- The instruction of the row of `i` whose operands are the fields of `w`. -/
def Instr.withFields (w : Word) : Instr → Instr
  | .cls => .cls
  | .ret => .ret
  | .jp _ => .jp (addrField w)
  | .call _ => .call (addrField w)
  | .seImm _ _ => .seImm (xField w) (nnField w)
  | .sneImm _ _ => .sneImm (xField w) (nnField w)
  | .seReg _ _ => .seReg (xField w) (yField w)
  | .ldImm _ _ => .ldImm (xField w) (nnField w)
  | .addImm _ _ => .addImm (xField w) (nnField w)
  | .ldReg _ _ => .ldReg (xField w) (yField w)
  | .orReg _ _ => .orReg (xField w) (yField w)
  | .andReg _ _ => .andReg (xField w) (yField w)
  | .xorReg _ _ => .xorReg (xField w) (yField w)
  | .addReg _ _ => .addReg (xField w) (yField w)
  | .subReg _ _ => .subReg (xField w) (yField w)
  | .shrReg _ _ => .shrReg (xField w) (yField w)
  | .subnReg _ _ => .subnReg (xField w) (yField w)
  | .shlReg _ _ => .shlReg (xField w) (yField w)
  | .sneReg _ _ => .sneReg (xField w) (yField w)
  | .ldI _ => .ldI (addrField w)
  | .jpV0 _ => .jpV0 (addrField w)
  | .rnd _ _ => .rnd (xField w) (nnField w)
  | .drw _ _ _ => .drw (xField w) (yField w) (nField w)
  | .skp _ => .skp (xField w)
  | .sknp _ => .sknp (xField w)
  | .ldVxDT _ => .ldVxDT (xField w)
  | .ldVxK _ => .ldVxK (xField w)
  | .ldDTVx _ => .ldDTVx (xField w)
  | .ldSTVx _ => .ldSTVx (xField w)
  | .addI _ => .addI (xField w)
  | .ldF _ => .ldF (xField w)
  | .ldB _ => .ldB (xField w)
  | .storeRegs _ => .storeRegs (xField w)
  | .loadRegs _ => .loadRegs (xField w)

theorem row_withFields (w : Word) (i : Instr) : (i.withFields w).row = i.row := by cases i <;> rfl

/-- A word with the fixed bits of a row is the encoding of that row's instruction with the word's own operands. -/
theorem encode_withFields (h : i.row.selects w = true) : encode (i.withFields w) = w := by
  cases i
  case cls | ret => exact (selects_word.mp h).symm
  case jp | call | ldI | jpV0 => exact encodeA_fields (selects_op.mp h)
  case seImm | sneImm | ldImm | addImm | rnd => exact encodeXNN_fields (selects_op.mp h) rfl
  case drw => exact encodeXYN_fields (selects_op.mp h) rfl
  case seReg | sneReg | ldReg | orReg | andReg | xorReg | addReg | subReg | shrReg | subnReg | shlReg =>
    exact encodeXYN_of_selects h
  case skp | sknp | ldVxDT | ldVxK | ldDTVx | ldSTVx | addI | ldF | ldB | storeRegs | loadRegs =>
    exact encodeXNN_of_selects h

/-! ### Decoding and encoding (R77, R78) -/

/-- The encoder's constant bits lead the decoder to its branch, and the fields there are the operands. -/
@[simp] theorem decode_encode (i : Instr) : decode (encode i) = .ok i := by
  cases i
  case cls | ret => rfl
  case jp | call | ldI | jpV0 | seImm | sneImm | ldImm | addImm | rnd | seReg | sneReg | drw =>
    simp [encode, decode]
  case ldReg | orReg | andReg | xorReg | addReg | subReg | shrReg | subnReg | shlReg =>
    simp [encode, decode, decodeAlu]
  case skp | sknp => simp [encode, decode, decodeKeys]
  case ldVxDT | ldVxK | ldDTVx | ldSTVx | addI | ldF | ldB | storeRegs | loadRegs =>
    simp [encode, decode, decodeMisc]

theorem decodeBytes_encodeBytes_append (i : Instr) (rest : List Byte) :
    decodeBytes (encodeBytes i ++ rest) = .ok (i, rest) := by
  simp [encodeBytes, decodeBytes]

/-- Every bit of the word is the instruction's: the fixed bits are its row's and the fields are its operands. -/
structure Instr.SpelledBy (w : Word) (i : Instr) : Prop where
  fixedBits : i.row.selects w = true
  operands : i.withFields w = i

/-- A branch of the decoder, taken or not. -/
theorem spelledBy_of_ite {c : Prop} [Decidable c] {a b : Except DecodeError Instr}
    (ha : c → a = .ok i → i.SpelledBy w) (hb : ¬c → b = .ok i → i.SpelledBy w) (h : (if c then a else b) = .ok i) :
    i.SpelledBy w := by
  split at h
  case isTrue hc => exact ha hc h
  case isFalse hc => exact hb hc h

/-- A branch of the decoder that answers an instruction. -/
theorem spelledBy_of_ite_ok {c : Prop} [Decidable c] {j : Instr} {b : Except DecodeError Instr}
    (hj : c → j.SpelledBy w) (hb : ¬c → b = .ok i → i.SpelledBy w) : (if c then .ok j else b) = .ok i → i.SpelledBy w :=
  spelledBy_of_ite (fun hc h => Except.ok.inj h ▸ hj hc) hb

theorem spelledBy_of_decodeSystem : decodeSystem w = .ok i → i.SpelledBy w := by
  unfold decodeSystem
  iterate 2 refine spelledBy_of_ite_ok (fun hw => ⟨selects_word.mpr hw, rfl⟩) fun _ => ?_
  nofun

theorem spelledBy_of_decodeAlu (hop : opField w = 0x8#4) : decodeAlu w = .ok i → i.SpelledBy w := by
  unfold decodeAlu
  iterate 9 refine spelledBy_of_ite_ok (fun hn => ⟨selects_op_n.mpr ⟨hop, hn⟩, rfl⟩) fun _ => ?_
  nofun

theorem spelledBy_of_decodeKeys (hop : opField w = 0xE#4) : decodeKeys w = .ok i → i.SpelledBy w := by
  unfold decodeKeys
  iterate 2 refine spelledBy_of_ite_ok (fun hnn => ⟨selects_op_nn.mpr ⟨hop, hnn⟩, rfl⟩) fun _ => ?_
  nofun

theorem spelledBy_of_decodeMisc (hop : opField w = 0xF#4) : decodeMisc w = .ok i → i.SpelledBy w := by
  unfold decodeMisc
  iterate 9 refine spelledBy_of_ite_ok (fun hnn => ⟨selects_op_nn.mpr ⟨hop, hnn⟩, rfl⟩) fun _ => ?_
  nofun

/-- The decoder's branches in the order of R78. -/
theorem spelledBy_of_decode : decode w = .ok i → i.SpelledBy w := by
  unfold decode
  refine spelledBy_of_ite (fun _ => spelledBy_of_decodeSystem) fun _ => ?_
  iterate 4 refine spelledBy_of_ite_ok (fun hop => ⟨selects_op.mpr hop, rfl⟩) fun _ => ?_
  refine spelledBy_of_ite
    (fun hop => spelledBy_of_ite_ok (fun hn => ⟨selects_op_n.mpr ⟨hop, hn⟩, rfl⟩) nofun) fun _ => ?_
  iterate 2 refine spelledBy_of_ite_ok (fun hop => ⟨selects_op.mpr hop, rfl⟩) fun _ => ?_
  refine spelledBy_of_ite spelledBy_of_decodeAlu fun _ => ?_
  refine spelledBy_of_ite
    (fun hop => spelledBy_of_ite_ok (fun hn => ⟨selects_op_n.mpr ⟨hop, hn⟩, rfl⟩) nofun) fun _ => ?_
  iterate 4 refine spelledBy_of_ite_ok (fun hop => ⟨selects_op.mpr hop, rfl⟩) fun _ => ?_
  refine spelledBy_of_ite spelledBy_of_decodeKeys fun _ => ?_
  have hF : opField w = 0xF#4 := by bv_omega -- the one family the tests above left
  exact spelledBy_of_decodeMisc hF

theorem row_mem_opcodeTable (i : Instr) : i.row ∈ opcodeTable := by
  have hmem : i.withFields 0#16 ∈ tableInstrs := by cases i <;> exact of_decide_eq_true rfl
  rw [← row_withFields 0#16 i]
  exact List.mem_map_of_mem hmem

/-- A word with a row's fixed bits decodes to that row's instruction with the word's operands. -/
theorem decode_of_selects (h : i.row.selects w = true) : decode w = .ok (i.withFields w) := by
  have hdec := decode_encode (i.withFields w)
  rwa [encode_withFields h] at hdec

theorem exists_decode_of_selects {r : Row} (hr : r ∈ opcodeTable) (h : r.selects w = true) :
    ∃ i, decode w = .ok i ∧ i.row = r := by
  obtain ⟨j, -, rfl⟩ := List.mem_map.mp hr
  exact ⟨j.withFields w, decode_of_selects h, row_withFields w j⟩

/-- No two rows select one word, for each row that does is the row of the one instruction it decodes to. -/
theorem row_eq_of_selects {r r' : Row} (hr : r ∈ opcodeTable) (hr' : r' ∈ opcodeTable) (h : r.selects w = true)
    (h' : r'.selects w = true) : r = r' := by
  obtain ⟨i, hi, rfl⟩ := exists_decode_of_selects hr h
  obtain ⟨i', hi', rfl⟩ := exists_decode_of_selects hr' h'
  rw [Except.ok.inj (hi.symm.trans hi')]

/-- Settles O2: the fields of the encoder's word are the operands, and its two bytes make the word again. -/
theorem decodeInvertsEncode : Obligations.DecodeInvertsEncode :=
  fun i rest _ => ⟨decode_encode i, decodeBytes_encodeBytes_append i rest⟩

/-- Settles O3: the decoder answers an instruction only when every bit of the word is the instruction's. -/
theorem encodeInvertsDecode : Obligations.EncodeInvertsDecode := by
  intro w i h
  obtain ⟨hrow, hfields⟩ := spelledBy_of_decode h
  rw [← hfields]
  exact encode_withFields hrow

/-- Settles O4, from the decoder's branches, from the encoder's inverse, and from the one instruction a word has. -/
theorem decodeFollowsOpcodeTable : Obligations.DecodeFollowsOpcodeTable :=
  ⟨fun _ i h => ⟨row_mem_opcodeTable i, (spelledBy_of_decode h).fixedBits⟩,
    fun _ _ hr h => exists_decode_of_selects hr h,
    fun _ _ hr _ hr' h h' => row_eq_of_selects hr hr' h h'⟩

/-- Settles O1: each word is evaluated by the decoder. -/
theorem specWordsDecodeAsWritten : Obligations.SpecWordsDecodeAsWritten := by
  unfold Obligations.SpecWordsDecodeAsWritten
  decide

end Sys2Proof
end

section
/-! SUPPORT. The PC advance (spec/40_cycle.md R96, spec/41_flow.md R109): what an execute step that commits without a
fault answers, that no shared operation writes pc, and where each instruction's advance leaves it. -/
namespace Sys2Proof.Machine

variable {s t : State} {i : Instr} {a : Nat} {bs : List Byte} {x y : RegIdx} {α : Type}

/-- An execute step that ends without a fault is the one its operation answered. -/
theorem commit_map_of_fault_none {r : Except Fault α} {g : α → State} (h : (s.commit (r.map g)).fault = none) :
    ∃ u, r = .ok u ∧ s.commit (r.map g) = g u := by
  cases r with
  | error f => cases h
  | ok u => exact ⟨u, rfl, rfl⟩

/-! ### The operations do not write pc -/

@[simp] theorem writeFlag_pc (s : State) (f : Option Byte) : (s.writeFlag f).pc = s.pc := by
  cases f <;> rfl

@[simp] theorem aluImm_pc (s : State) (op : AluOp) (x : RegIdx) (nn : Byte) : (s.aluImm op x nn).pc = s.pc := rfl

@[simp] theorem aluReg_pc (s : State) (op : AluOp) (x y : RegIdx) : (s.aluReg op x y).pc = s.pc := by
  rw [State.aluReg, setReg_pc, writeFlag_pc]

@[simp] theorem addWithCarry_pc (s : State) (x y : RegIdx) : (s.addWithCarry x y).pc = s.pc := by
  rw [State.addWithCarry, setReg_pc, writeFlag_pc]

@[simp] theorem setRegsFrom_pc (s : State) (k : Nat) (bs : List Byte) : (s.setRegsFrom k bs).pc = s.pc := by
  rw [setRegsFrom_onlyRegs]

theorem writeBytes_pc (h : s.writeBytes a bs = .ok t) : t.pc = s.pc := by
  rw [writeBytes_onlyMem h]

theorem drawSprite_pc {n : Nibble} (h : s.drawSprite x y n = .ok t) : t.pc = s.pc := by
  obtain ⟨fb, f, rfl⟩ := drawSprite_ok h
  rfl

/-- The advance after an operation that does not write pc. -/
theorem advance_pc_of_pc_eq (h : t.pc = s.pc) : t.advance.pc = s.pc + 2 := by
  rw [advance_pc, h]

/-- An execute step that ends with the PC advance of the state an operation answers. -/
theorem commit_advance_pc {r : Except Fault State} (ht : (s.commit (r.map State.advance)).fault = none)
    (h : ∀ u, r = .ok u → u.pc = s.pc) : (s.commit (r.map State.advance)).pc = s.pc + 2 := by
  obtain ⟨u, hu, hcommit⟩ := commit_map_of_fault_none ht
  rw [hcommit]
  exact advance_pc_of_pc_eq (h u hu)

/-! ### The two ways an instruction that is not always PC-setting leaves pc -/

/-- A skip that raises no fault is the skip mechanism of R109 on some condition, and nothing else. -/
theorem exec_eq_skipIf_of_isSkip (h : exec i s = .next t) (ht : t.fault = none) (hskip : i.isSkip = true) :
    ∃ c, t = s.skipIf c := by
  cases i
  case seImm | sneImm | seReg | sneReg => exact ⟨_, (Host.Outcome.next.inj h).symm⟩
  case skp | sknp =>
    obtain rfl := Host.Outcome.next.inj h
    obtain ⟨k, -, hcommit⟩ := commit_map_of_fault_none ht
    exact ⟨_, hcommit⟩
  all_goals cases hskip

/-- An instruction that is neither PC-setting nor a skip, and raises no fault, ends with the dispatcher's advance. -/
theorem exec_pc_of_not_setsPc (h : exec i s = .next t) (ht : t.fault = none) (hset : i.setsPc = false)
    (hskip : i.isSkip = false) : t.pc = s.pc + 2 := by
  cases i
  all_goals obtain rfl := Host.Outcome.next.inj h
  case ret | jp | call | jpV0 => cases hset
  case seImm | sneImm | seReg | sneReg | skp | sknp => cases hskip
  case cls | ldI | rnd | ldVxDT | ldVxK | ldDTVx | ldSTVx | addI | ldF => rfl
  case ldImm | addImm => exact advance_pc_of_pc_eq (aluImm_pc s _ _ _)
  case ldReg | orReg | andReg | xorReg | subReg | shrReg | subnReg | shlReg =>
    exact advance_pc_of_pc_eq (aluReg_pc s _ _ _)
  case addReg => exact advance_pc_of_pc_eq (addWithCarry_pc s _ _)
  case drw => exact commit_advance_pc ht fun _ hu => drawSprite_pc hu
  case ldB | storeRegs => exact commit_advance_pc ht fun _ hu => writeBytes_pc hu
  case loadRegs =>
    obtain ⟨bs, -, hcommit⟩ := commit_map_of_fault_none ht
    exact (congrArg State.pc hcommit).trans (advance_pc_of_pc_eq (setRegsFrom_pc s 0 bs))

/-- Settles O21: a skip moves pc by the skip mechanism, any other instruction ends with the dispatcher's advance. -/
theorem pcAdvancesUnlessSet : Obligations.PcAdvancesUnlessSet := by
  intro i s t _ h ht hset
  refine ⟨exec_pc_of_not_setsPc h ht hset, fun hskip => ?_⟩
  obtain ⟨c, rfl⟩ := exec_eq_skipIf_of_isSkip h ht hskip
  cases c
  · exact .inr rfl
  · exact .inl rfl

end Sys2Proof.Machine
end

section
/-! SUPPORT. Display clear and the skips on an immediate (spec/41_flow.md R105, R109-R111): an encoding line written
with or and shift is the encoder's word, frames compose, and where the skip mechanism leaves pc. -/
namespace Sys2Proof.Machine
open Sys2Proof.Claims

variable {s t u : State} {p : Part} {changed changed' : List Part} {op : Nibble} {x : RegIdx} {nn : Byte}

/-! ### Encoding lines -/

theorem encodedAs_encode (i : Instr) : EncodedAs i (encode i) i.row.mask := ⟨rfl, decode_encode i, rfl⟩

theorem encodeXNN_or (a b : Nibble) (x y : RegIdx) (m n : Byte) :
    encodeXNN a x m ||| encodeXNN b y n = encodeXNN (a ||| b) (x ||| y) (m ||| n) :=
  BitVec.or_append.trans (congrArg (· ++ (m ||| n)) BitVec.or_append)

theorem encodeA_eq_encodeXNN : encodeA op 0#12 = encodeXNN op 0#4 0#8 := by
  apply BitVec.eq_of_toNat_eq
  rw [encodeA_toNat, encodeXNN_toNat]
  simp only [BitVec.toNat_ofNat]

theorem regSetWidth_shiftLeft_eq_encodeXNN : x.setWidth 16 <<< 8 = encodeXNN 0#4 x 0#8 := by
  apply BitVec.eq_of_toNat_eq
  have hx := x.isLt
  rw [encodeXNN_toNat, BitVec.toNat_shiftLeft, BitVec.toNat_setWidth, Nat.shiftLeft_eq]
  simp only [BitVec.toNat_ofNat]
  omega

theorem byteSetWidth_eq_encodeXNN : nn.setWidth 16 = encodeXNN 0#4 0#4 nn := by
  apply BitVec.eq_of_toNat_eq
  have hnn := nn.isLt
  rw [encodeXNN_toNat, BitVec.toNat_setWidth]
  simp only [BitVec.toNat_ofNat]
  omega

/-- The operands of format XNN have bits of their own, so `or` sets them side by side. -/
theorem wordXNN_eq_encodeXNN : wordXNN (encodeA op 0#12) x nn = encodeXNN op x nn := by
  rw [wordXNN, encodeA_eq_encodeXNN, regSetWidth_shiftLeft_eq_encodeXNN, byteSetWidth_eq_encodeXNN]
  simp only [encodeXNN_or, BitVec.or_zero, BitVec.zero_or]

/-- The rule's `0x3000` is, by evaluation, the word of digit 3 and address 0. -/
theorem encodedAs_seImm : EncodedAs (.seImm x nn) (wordXNN 0x3000#16 x nn) 0xF000#16 :=
  wordXNN_eq_encodeXNN (op := 0x3#4) ▸ encodedAs_encode (.seImm x nn)

/-- The rule's `0x4000` is, by evaluation, the word of digit 4 and address 0. -/
theorem encodedAs_sneImm : EncodedAs (.sneImm x nn) (wordXNN 0x4000#16 x nn) 0xF000#16 :=
  wordXNN_eq_encodeXNN (op := 0x4#4) ▸ encodedAs_encode (.sneImm x nn)

/-! ### Frames -/

theorem Part.Same.trans (h : p.Same s t) (h' : p.Same t u) : p.Same s u := by
  cases p
  case regs | memory => exact fun k => (h' k).trans (h k)
  case display => exact fun px py => (h' px py).trans (h px py)
  all_goals exact Eq.trans h' h

theorem KeepsAllBut.trans (h : KeepsAllBut changed s t) (h' : KeepsAllBut changed' t u) :
    KeepsAllBut (changed ++ changed') s u := fun p hp =>
  (h p fun hmem => hp (List.mem_append_left _ hmem)).trans (h' p fun hmem => hp (List.mem_append_right _ hmem))

theorem keepsAllBut_setPc (s : State) (target : Word) : KeepsAllBut [.pc] s (s.setPc target) := by
  intro p hp
  cases p
  case pc => exact absurd List.mem_cons_self hp
  case regs => exact setPc_reg s target
  case memory => exact setPc_byte s target
  case display => exact setPc_pixel s target
  all_goals rfl

theorem keepsAllBut_displayClear (s : State) : KeepsAllBut [.display] s s.displayClear := by
  intro p hp
  cases p
  case display => exact absurd List.mem_cons_self hp
  case regs => exact displayClear_reg s
  case memory => exact displayClear_byte s
  all_goals rfl

theorem keepsAllBut_advance (s : State) : KeepsAllBut [.pc] s s.advance := keepsAllBut_setPc s _

theorem keepsAllBut_skipIf (s : State) (c : Bool) : KeepsAllBut [.pc] s (s.skipIf c) := keepsAllBut_setPc s _

/-! ### The skip mechanism on a comparison -/

theorem skipIf_eq_pc (s : State) (a b : Byte) : (s.skipIf (a == b)).pc = if a = b then s.pc + 4 else s.pc + 2 := by
  simp only [skipIf_pc, beq_iff_eq]

theorem skipIf_ne_pc (s : State) (a b : Byte) : (s.skipIf (a != b)).pc = if a = b then s.pc + 2 else s.pc + 4 := by
  simp only [skipIf_pc, bne_iff_ne, ite_not]

/-- Settles O29: the clear blanks the display alone, and the dispatcher's advance moves pc alone. -/
theorem clsTurnsEveryPixelOff : Obligations.ClsTurnsEveryPixelOff :=
  ⟨encodedAs_encode .cls, fun s =>
    ⟨s.displayClear.advance, rfl, displayClear_pixel s, rfl,
      (keepsAllBut_displayClear s).trans (keepsAllBut_advance s.displayClear)⟩⟩

/-- Settles O33: each skip is the skip mechanism on its comparison, which moves pc alone. -/
theorem skipsOnImmediate : Obligations.SkipsOnImmediate := fun x nn =>
  ⟨encodedAs_seImm, encodedAs_sneImm, fun s =>
    ⟨⟨s.skipIf (s.reg x == nn), rfl, skipIf_eq_pc s (s.reg x) nn, keepsAllBut_skipIf s _⟩,
      ⟨s.skipIf (s.reg x != nn), rfl, skipIf_ne_pc s (s.reg x) nn, keepsAllBut_skipIf s _⟩⟩⟩

end Sys2Proof.Machine
end

section
/-! SUPPORT. The ALU instructions without a flag (spec/42_alu.md R120-R127): the encoder's word of two registers, the
frame of a register write, and what an instruction that writes one register and advances pc completes with. -/
namespace Sys2Proof.Machine
open Sys2Proof.Claims

variable {s : State} {i : Instr} {op n : Nibble} {x y : RegIdx} {nn b : Byte} {alu : AluOp}

/-! ### Encoding lines -/

/-- An encoding line of format XNN, its first word written as the digit `op` and address 0. -/
theorem encodedAs_wordXNN (op : Nibble) (h : encode i = encodeXNN op x nn) :
    EncodedAs i (wordXNN (encodeA op 0#12) x nn) i.row.mask := by
  rw [wordXNN_eq_encodeXNN, ← h]
  exact encodedAs_encode i

theorem encodeXYN_eq_encodeXNN : encodeXYN op x y n = encodeXNN op x (y ++ n) := by
  apply BitVec.eq_of_toNat_eq
  rw [encodeXYN_toNat, encodeXNN_toNat, toNat_append_eq]
  omega

theorem regSetWidth_shiftLeft_four_eq_encodeXYN : y.setWidth 16 <<< 4 = encodeXYN 0#4 0#4 y 0#4 := by
  apply BitVec.eq_of_toNat_eq
  have hy := y.isLt
  rw [encodeXYN_toNat, BitVec.toNat_shiftLeft, BitVec.toNat_setWidth, Nat.shiftLeft_eq]
  simp only [BitVec.toNat_ofNat]
  omega

/-- The operands of format XYS have bits of their own, so `or` sets them side by side. -/
theorem wordXY_eq_encodeXYN : wordXY (encodeXYN op 0#4 0#4 n) x y = encodeXYN op x y n := by
  have hlow : (0#4 ++ n) ||| (y ++ 0#4) = y ++ n := by rw [BitVec.or_append, BitVec.zero_or, BitVec.or_zero]
  rw [wordXY, regSetWidth_shiftLeft_eq_encodeXNN, regSetWidth_shiftLeft_four_eq_encodeXYN]
  simp only [encodeXYN_eq_encodeXNN, encodeXNN_or, BitVec.or_zero, BitVec.zero_or, hlow]

/-- An encoding line of format XYS, its first word written as the digits `op` and `n` and no registers. -/
theorem encodedAs_wordXY (op n : Nibble) (h : encode i = encodeXYN op x y n) :
    EncodedAs i (wordXY (encodeXYN op 0#4 0#4 n) x y) i.row.mask := by
  rw [wordXY_eq_encodeXYN, ← h]
  exact encodedAs_encode i

/-! ### Instructions that write one register and advance pc -/

theorem keepsAllBut_setReg (s : State) (x : RegIdx) (b : Byte) : KeepsAllBut [.regs] s (s.setReg x b) := by
  intro p hp
  cases p
  case regs => exact absurd List.mem_cons_self hp
  case memory => exact setReg_byte s x b
  case display => exact setReg_pixel s x b
  all_goals rfl

/-- An instruction that writes `b` to `V[x]` and advances completes with whatever holds of `b` holding of `V[x]`. -/
theorem completes_of_setReg (P : Byte → Prop) (h : exec i s = .next (s.setReg x b).advance) (hb : P b) :
    ∃ t, exec i s = .next t ∧ P (t.reg x) ∧ (∀ j, j ≠ x → t.reg j = s.reg j) ∧ t.pc = s.pc + 2 ∧
      KeepsAllBut [.regs, .pc] s t := by
  refine ⟨_, h, ?_, fun j hj => reg_setReg_other s b hj, rfl,
    (keepsAllBut_setReg s x b).trans (keepsAllBut_advance _)⟩
  rwa [advance_reg, reg_setReg_same]

/-- Without a flag the register form computes from the old registers and writes `V[x]` alone (R121). -/
theorem aluReg_eq_setReg (hflag : ∀ norm a c, aluFlag norm alu a c = none) :
    s.aluReg alu x y = s.setReg x (aluResult alu (s.reg x) (s.reg y)) := by
  rw [State.aluReg, hflag, State.writeFlag]

theorem completes_of_aluReg (P : Byte → Prop) (h : exec i s = .next (s.aluReg alu x y).advance)
    (hflag : ∀ norm a c, aluFlag norm alu a c = none) (hresult : P (aluResult alu (s.reg x) (s.reg y))) :
    ∃ t, exec i s = .next t ∧ P (t.reg x) ∧ (∀ j, j ≠ x → t.reg j = s.reg j) ∧ t.pc = s.pc + 2 ∧
      KeepsAllBut [.regs, .pc] s t :=
  completes_of_setReg P (aluReg_eq_setReg (s := s) hflag ▸ h) hresult

/-- Settles O35: each writes its result to `V[x]` and advances, and 8-bit addition is modulo 256. -/
theorem immediateLoadAndAdd : Obligations.ImmediateLoadAndAdd := fun x nn =>
  ⟨encodedAs_wordXNN 0x6#4 rfl, encodedAs_wordXNN 0x7#4 rfl, fun s =>
    ⟨completes_of_setReg (· = nn) rfl rfl,
      completes_of_setReg (·.toNat = ((s.reg x).toNat + nn.toNat) % 256) rfl (BitVec.toNat_add (s.reg x) nn)⟩⟩

/-- Settles O36: none of the four has a flag, so each writes its result of R120 to `V[x]` and advances. -/
theorem copyAndBitwise : Obligations.CopyAndBitwise := fun x y =>
  ⟨encodedAs_wordXY 0x8#4 0x0#4 rfl, encodedAs_wordXY 0x8#4 0x1#4 rfl,
    encodedAs_wordXY 0x8#4 0x2#4 rfl, encodedAs_wordXY 0x8#4 0x3#4 rfl, fun s =>
    ⟨completes_of_aluReg (· = s.reg y) rfl (fun _ _ _ => rfl) rfl,
      completes_of_aluReg (fun r => ∀ k, r.getLsbD k = ((s.reg x).getLsbD k || (s.reg y).getLsbD k)) rfl
        (fun _ _ _ => rfl) fun _ => BitVec.getLsbD_or,
      completes_of_aluReg (fun r => ∀ k, r.getLsbD k = ((s.reg x).getLsbD k && (s.reg y).getLsbD k)) rfl
        (fun _ _ _ => rfl) fun _ => BitVec.getLsbD_and,
      completes_of_aluReg (fun r => ∀ k, r.getLsbD k = ((s.reg x).getLsbD k ^^ (s.reg y).getLsbD k)) rfl
        (fun _ _ _ => rfl) fun _ => BitVec.getLsbD_xor⟩⟩

end Sys2Proof.Machine
end

section
/-! SUPPORT. Load of the index register (spec/43_index_random_draw.md R140): an encoding line of format A is the
encoder's word, and the frame of a write to `I`. -/
namespace Sys2Proof.Machine
open Sys2Proof.Claims

variable {i : Instr} {op : Nibble} {addr : Addr}

/-- The operation digit and the address have bits of their own, so `or` sets them side by side. -/
theorem wordA_eq_encodeA : wordA (encodeA op 0#12) addr = encodeA op addr := by
  have haddr : addr.setWidth 16 = 0#4 ++ addr := BitVec.setWidth_eq_append (by decide)
  rw [wordA, haddr, encodeA, BitVec.or_append, BitVec.or_zero, BitVec.zero_or, encodeA]

/-- An encoding line of format A, its first word written as the digit `op` and address 0. -/
theorem encodedAs_wordA (op : Nibble) (h : encode i = encodeA op addr) :
    EncodedAs i (wordA (encodeA op 0#12) addr) i.row.mask := by
  rw [wordA_eq_encodeA, ← h]
  exact encodedAs_encode i

theorem keepsAllBut_setIndex (s : State) (a : Word) : KeepsAllBut [.index] s { s with i := a } := by
  intro p hp
  cases p
  case index => exact absurd List.mem_cons_self hp
  case regs | memory => exact fun _ => rfl
  case display => exact fun _ _ => rfl
  all_goals rfl

/-- Settles O42: the write of the zero-extended address changes `I` alone, and the advance moves pc alone. -/
theorem loadIndexImmediate : Obligations.LoadIndexImmediate := fun addr =>
  ⟨encodedAs_wordA 0xA#4 rfl, fun s =>
    ⟨State.advance { s with i := zextAddr addr }, rfl, rfl, rfl,
      (keepsAllBut_setIndex s (zextAddr addr)).trans (keepsAllBut_advance _)⟩⟩

end Sys2Proof.Machine
end

section
/-! SUPPORT. The program load (spec/70_reset_and_hazards.md R201, R202): a block write keeps every part but memory and
keeps the invariant, and launching a program that fits is one block write to the reset state. -/
namespace Sys2Proof.Machine

variable {s t : State} {a : Nat} {bs bytes : List Byte} {c : Config}

theorem keepsAllBut_writeBytes (h : s.writeBytes a bs = .ok t) : KeepsAllBut [.memory] s t := by
  intro p hp
  rw [writeBytes_onlyMem h]
  cases p
  case memory => exact absurd List.mem_cons_self hp
  case regs => exact fun _ => rfl
  case display => exact fun _ _ => rfl
  all_goals rfl

/-- Only the canonical form speaks of memory; the rest of the invariant is about parts that a block write keeps. -/
theorem writeBytes_inv (h : s.writeBytes a bs = .ok t) (hs : s.Inv) : t.Inv := by
  obtain ⟨hmem, hbounded, hrange, hpc⟩ := hs
  have hcanonical := writeBytes_canonical h hmem
  rw [writeBytes_onlyMem h] at hcanonical ⊢
  exact ⟨hcanonical, hbounded, hrange, hpc⟩

theorem resetWith_inv (c : Config) : (State.resetWith c).Inv where
  memCanonical := wf_nil
  stackBounded := fun d _ => Nat.zero_le d
  stackInRange := nofun
  pcInRange := show pcReset.toNat ≤ 0x10FE by decide

/-- A program that fits is not refused as too large, and its block write meets no address outside memory. -/
theorem writeBytes_eq_launch (hfits : progBase + bytes.length ≤ memSize) :
    (State.resetWith c).writeBytes progBase bytes = .ok (State.launch c bytes) := by
  obtain ⟨t, ht⟩ := writeBytes_inside (State.resetWith c) (.inr hfits)
  rw [State.launch, State.load, if_neg (Nat.not_lt.mpr hfits), ht, commit_ok]

/-- Settles O26: the launch is one block write to the reset state, whose memory is canonical. -/
theorem launchPlacesProgram : Obligations.LaunchPlacesProgram := by
  intro c bytes hlen
  have hfits : progBase + bytes.length ≤ memSize := Nat.add_le_add_left hlen 0x200
  have hwrite := writeBytes_eq_launch (c := c) hfits
  have hreset := resetWith_inv c
  refine ⟨fun _ hk => ?_, fun _ ha => ?_, keepsAllBut_writeBytes hwrite, writeBytes_inv hwrite hreset⟩
  · exact writeBytes_byte_inside hwrite hreset.memCanonical hk
  · exact writeBytes_byte_other hwrite ha

end Sys2Proof.Machine
end

section
/-! SUPPORT. What an execute step can do, said once (spec/40_cycle.md R94-R101): it takes a fault that R170 lists for
its instruction and changes nothing else, or it changes only the parts that its instruction's row in
`Instr.changes` names. -/
namespace Sys2Proof
open Sys2Proof.Machine

/-- The parts of the state that an instruction may change when it completes without a fault. -/
def Instr.changes : Instr → List Part
  | .cls => [.display, .pc]
  | .ret | .call _ => [.stack, .pc]
  | .jp _ | .jpV0 _ | .seImm _ _ | .sneImm _ _ | .seReg _ _ | .sneReg _ _ | .skp _ | .sknp _ => [.pc]
  | .ldImm _ _ | .addImm _ _ | .ldReg _ _ | .orReg _ _ | .andReg _ _ | .xorReg _ _ | .addReg _ _ | .subReg _ _
  | .shrReg _ _ | .subnReg _ _ | .shlReg _ _ | .rnd _ _ | .ldVxDT _ | .loadRegs _ => [.regs, .pc]
  | .ldI _ | .addI _ | .ldF _ => [.index, .pc]
  | .drw _ _ _ => [.display, .regs, .pc]
  | .ldVxK _ => [.paused, .wait, .pc]
  | .ldDTVx _ => [.dt, .pc]
  | .ldSTVx _ => [.st, .pc]
  | .ldB _ | .storeRegs _ => [.memory, .pc]

end Sys2Proof

namespace Sys2Proof.Machine
open Sys2Proof.Claims

variable {s t : State} {i : Instr} {p : Part} {changed changed' : List Part} {x y : RegIdx} {n : Nibble} {a : Nat}
  {b : Byte} {bs : List Byte} {v : Word} {f : Fault} {α : Type}

/-! ### Frames -/

theorem Part.Same.refl (p : Part) (s : State) : p.Same s s := by
  cases p
  case regs | memory => exact fun _ => rfl
  case display => exact fun _ _ => rfl
  all_goals rfl

theorem KeepsAllBut.mono (h : KeepsAllBut changed s t) (hsub : changed ⊆ changed') : KeepsAllBut changed' s t :=
  fun p hp => h p (mt (@hsub p) hp)

theorem keepsAllBut_takeFault (s : State) (f : Fault) : KeepsAllBut [.fault] s (s.takeFault f) := by
  intro p hp
  have hsame := Part.Same.refl p s
  cases p
  case fault => exact absurd List.mem_cons_self hp
  all_goals exact hsame

theorem keepsAllBut_setStack (s : State) (l : List Word) : KeepsAllBut [.stack] s { s with stack := l } := by
  intro p hp
  have hsame := Part.Same.refl p s
  cases p
  case stack => exact absurd List.mem_cons_self hp
  all_goals exact hsame

theorem keepsAllBut_setDelay (s : State) (b : Byte) : KeepsAllBut [.dt] s { s with dt := b } := by
  intro p hp
  have hsame := Part.Same.refl p s
  cases p
  case dt => exact absurd List.mem_cons_self hp
  all_goals exact hsame

theorem keepsAllBut_setSound (s : State) (b : Byte) : KeepsAllBut [.st] s { s with st := b } := by
  intro p hp
  have hsame := Part.Same.refl p s
  cases p
  case st => exact absurd List.mem_cons_self hp
  all_goals exact hsame

theorem keepsAllBut_setPaused (s : State) (q : Bool) : KeepsAllBut [.paused] s { s with paused := q } := by
  intro p hp
  have hsame := Part.Same.refl p s
  cases p
  case paused => exact absurd List.mem_cons_self hp
  all_goals exact hsame

theorem keepsAllBut_setWait (s : State) (x : RegIdx) : KeepsAllBut [.wait] s { s with w := x } := by
  intro p hp
  have hsame := Part.Same.refl p s
  cases p
  case wait => exact absurd List.mem_cons_self hp
  all_goals exact hsame

theorem keepsAllBut_setDisplay (s : State) (fb : FrameBuffer) : KeepsAllBut [.display] s { s with fb := fb } := by
  intro p hp
  have hsame := Part.Same.refl p s
  cases p
  case display => exact absurd List.mem_cons_self hp
  all_goals exact hsame

theorem keepsAllBut_setRegs (s : State) (v : Vector Byte 16) : KeepsAllBut [.regs] s { s with v := v } := by
  intro p hp
  have hsame := Part.Same.refl p s
  cases p
  case regs => exact absurd List.mem_cons_self hp
  all_goals exact hsame

theorem keepsAllBut_writeFlag (s : State) (flag : Option Byte) : KeepsAllBut [.regs] s (s.writeFlag flag) := by
  cases flag with
  | none => exact fun p _ => Part.Same.refl p s
  | some b => exact keepsAllBut_setReg s vf b

theorem keepsAllBut_writeFlag_setReg (s : State) (flag : Option Byte) (x : RegIdx) (b : Byte) :
    KeepsAllBut [.regs] s ((s.writeFlag flag).setReg x b) :=
  ((keepsAllBut_writeFlag s flag).trans (keepsAllBut_setReg _ x b)).mono (by decide)

theorem keepsAllBut_setRegsFrom (s : State) (k : Nat) (bs : List Byte) :
    KeepsAllBut [.regs] s (s.setRegsFrom k bs) := by
  rw [setRegsFrom_onlyRegs]
  exact keepsAllBut_setRegs s _

theorem keepsAllBut_drawSprite (h : s.drawSprite x y n = .ok t) : KeepsAllBut [.display, .regs] s t := by
  obtain ⟨fb, flag, rfl⟩ := drawSprite_ok h
  exact (keepsAllBut_setDisplay s fb).trans (keepsAllBut_setReg _ vf flag)

/-! ### Which faults the operations raise -/

theorem pop_ok {r : Word × State} (h : s.pop = .ok r) :
    s.stack = r.1 :: r.2.stack ∧ r.2 = { s with stack := r.2.stack } := by
  obtain ⟨-, hpop⟩ | ⟨v, rest, hstack, hpop⟩ := pop_cases s
  all_goals rw [hpop] at h
  · cases h
  · obtain rfl := Except.ok.inj h
    exact ⟨hstack, rfl⟩

theorem pop_error (h : s.pop = .error f) : f = .stackUnderflow := by
  obtain ⟨-, hpop⟩ | ⟨v, rest, -, hpop⟩ := pop_cases s
  all_goals rw [hpop] at h
  · exact (Except.error.inj h).symm
  · cases h

theorem push_ok (h : s.push v = .ok t) :
    s.cfg.stackDepth ≠ some s.stack.length ∧ t = { s with stack := v :: s.stack } := by
  obtain ⟨-, hpush⟩ | ⟨hroom, hpush⟩ := push_cases s v
  all_goals rw [hpush] at h
  · cases h
  · exact ⟨hroom, (Except.ok.inj h).symm⟩

theorem push_error (h : s.push v = .error f) : f = .stackOverflow := by
  obtain ⟨-, hpush⟩ | ⟨-, hpush⟩ := push_cases s v
  all_goals rw [hpush] at h
  · exact (Except.error.inj h).symm
  · cases h

theorem keyOfByte_of_lt (h : b.toNat < 16) : keyOfByte b = .ok (b.setWidth 4) :=
  if_neg (Nat.not_lt.mpr (Nat.le_of_lt_succ h))

theorem keyOfByte_of_le (h : 16 ≤ b.toNat) : keyOfByte b = .error (.invalidKey b) := if_pos h

theorem keyOfByte_error (h : keyOfByte b = .error f) : 16 ≤ b.toNat ∧ f = .invalidKey b := by
  by_cases hb : b.toNat < 16
  · rw [keyOfByte_of_lt hb] at h
    cases h
  · have hle := Nat.le_of_not_lt hb
    rw [keyOfByte_of_le hle] at h
    exact ⟨hle, (Except.error.inj h).symm⟩

theorem readBytes_error {m : Nat} (h : s.readBytes a m = .error f) : f = .memoryBounds (max a memSize) := by
  by_cases hm : m = 0 ∨ a + m ≤ memSize
  · rw [readBytes_inside s hm] at h
    cases h
  · rw [readBytes_outside s (by omega) (by omega)] at h
    exact (Except.error.inj h).symm

theorem writeBytes_error (h : s.writeBytes a bs = .error f) : f = .memoryBounds (max a memSize) := by
  by_cases hbs : bs = [] ∨ a + bs.length ≤ memSize
  · obtain ⟨t, ht⟩ := writeBytes_inside s hbs
    rw [ht] at h
    cases h
  · rw [not_or] at hbs
    rw [writeBytes_outside s hbs.1 (Nat.lt_of_not_le hbs.2)] at h
    exact (Except.error.inj h).symm

/-- The check of DRAW_EDGE = Fault names the first set bit that is off the screen (R143). -/
theorem checkDraw_error {e : DrawEdge} {cx cy : Nat} {bits : List SpriteBit} (h : checkDraw e cx cy bits = .error f) :
    e = .fault ∧ ∃ px py, f = .drawOutOfRange px py ∧ (64 ≤ px ∨ 32 ≤ py) := by
  cases e
  case fault =>
    simp only [checkDraw] at h
    split at h
    case h_1 b hb =>
      have hoff := List.find?_some hb
      simp only [Bool.or_eq_true, decide_eq_true_eq] at hoff
      exact ⟨rfl, _, _, (Except.error.inj h).symm, hoff⟩
    case h_2 => cases h
  all_goals cases h

theorem drawSprite_error (h : s.drawSprite x y n = .error f) :
    f = .memoryBounds (max s.i.toNat memSize) ∨
      s.cfg.drawEdge = .fault ∧ ∃ px py, f = .drawOutOfRange px py ∧ (64 ≤ px ∨ 32 ≤ py) := by
  simp only [State.drawSprite] at h
  split at h
  case h_1 hread =>
    obtain rfl := Except.error.inj h
    exact .inl (readBytes_error hread)
  case h_2 =>
    split at h
    case h_1 hcheck =>
      obtain rfl := Except.error.inj h
      exact .inr (checkDraw_error hcheck)
    case h_2 => cases h

/-! ### The outcomes of an execute step -/

/-- No arm of exec stops or is refused. -/
theorem exec_eq_next (i : Instr) (s : State) : ∃ t, exec i s = .next t := by
  cases i
  all_goals exact ⟨_, rfl⟩

/-- From `s` to `t` an instruction took a fault listed for it, or completed within its row of `Instr.changes`. -/
def ExecOutcome (i : Instr) (s t : State) : Prop :=
  (∃ f, FaultListed s i f ∧ t = s.takeFault f) ∨ KeepsAllBut i.changes s t

/-- An execute step whose operation answers a value to go on with, or a fault. -/
theorem execOutcome_commit_map {r : Except Fault α} {g : α → State}
    (hok : ∀ u, r = .ok u → KeepsAllBut i.changes s (g u)) (herror : ∀ f, r = .error f → FaultListed s i f) :
    ExecOutcome i s (s.commit (r.map g)) := by
  cases r with
  | error f => exact .inl ⟨f, herror f rfl, rfl⟩
  | ok u => exact .inr (hok u rfl)

/-- An access from I up names an address in the range that R170's row is asked for. -/
theorem faultListed_memoryBounds
    (hi : (∃ x y n, i = .drw x y n) ∨ (∃ x, i = .ldB x) ∨ (∃ x, i = .storeRegs x) ∨ ∃ x, i = .loadRegs x) :
    FaultListed s i (.memoryBounds (max s.i.toNat memSize)) := by
  have hI := s.i.isLt
  exact ⟨Nat.le_max_right _ _, Nat.max_le.mpr ⟨by omega, by decide⟩, hi⟩

/-- Every execute step takes a fault listed for its instruction, or completes within its row of `Instr.changes`. -/
theorem exec_cases (h : exec i s = .next t) : ExecOutcome i s t := by
  cases i
  all_goals obtain rfl := Host.Outcome.next.inj h
  case cls => exact .inr ((keepsAllBut_displayClear s).trans (keepsAllBut_advance _))
  case jp | jpV0 => exact .inr (keepsAllBut_setPc s _)
  case seImm | sneImm | seReg | sneReg => exact .inr (keepsAllBut_skipIf s _)
  case ldImm | addImm | rnd | ldVxDT => exact .inr ((keepsAllBut_setReg s _ _).trans (keepsAllBut_advance _))
  case ldReg | orReg | andReg | xorReg | addReg | subReg | shrReg | subnReg | shlReg =>
    exact .inr ((keepsAllBut_writeFlag_setReg s _ _ _).trans (keepsAllBut_advance _))
  case ldI | addI | ldF => exact .inr ((keepsAllBut_setIndex s _).trans (keepsAllBut_advance _))
  case ldVxK x =>
    exact .inr (((keepsAllBut_setPaused s true).trans (keepsAllBut_setWait _ x)).trans (keepsAllBut_advance _))
  case ldDTVx => exact .inr ((keepsAllBut_setDelay s _).trans (keepsAllBut_advance _))
  case ldSTVx => exact .inr ((keepsAllBut_setSound s _).trans (keepsAllBut_advance _))
  case ret =>
    refine execOutcome_commit_map (fun r hr => ?_) fun f hf => pop_error hf ▸ rfl
    rw [(pop_ok hr).2]
    exact (keepsAllBut_setStack s _).trans (keepsAllBut_setPc _ _)
  case call addr =>
    refine execOutcome_commit_map (fun u hu => ?_) fun f hf => push_error hf ▸ ⟨addr, rfl⟩
    rw [(push_ok hu).2]
    exact (keepsAllBut_setStack s _).trans (keepsAllBut_setPc _ _)
  case skp x =>
    refine execOutcome_commit_map (fun _ _ => keepsAllBut_skipIf s _) fun f hf => ?_
    obtain ⟨hlarge, rfl⟩ := keyOfByte_error hf
    exact ⟨hlarge, x, .inl rfl, rfl⟩
  case sknp x =>
    refine execOutcome_commit_map (fun _ _ => keepsAllBut_skipIf s _) fun f hf => ?_
    obtain ⟨hlarge, rfl⟩ := keyOfByte_error hf
    exact ⟨hlarge, x, .inr rfl, rfl⟩
  case drw x y n =>
    refine execOutcome_commit_map (fun u hu => ?_) fun f hf => ?_
    · exact (keepsAllBut_drawSprite hu).trans (keepsAllBut_advance u)
    · obtain rfl | ⟨hedge, px, py, rfl, hoff⟩ := drawSprite_error hf
      · exact faultListed_memoryBounds (.inl ⟨x, y, n, rfl⟩)
      · exact ⟨hedge, hoff, x, y, n, rfl⟩
  case ldB x =>
    exact execOutcome_commit_map (fun u hu => (keepsAllBut_writeBytes hu).trans (keepsAllBut_advance u)) fun f hf =>
      writeBytes_error hf ▸ faultListed_memoryBounds (.inr (.inl ⟨x, rfl⟩))
  case storeRegs x =>
    exact execOutcome_commit_map (fun u hu => (keepsAllBut_writeBytes hu).trans (keepsAllBut_advance u)) fun f hf =>
      writeBytes_error hf ▸ faultListed_memoryBounds (.inr (.inr (.inl ⟨x, rfl⟩)))
  case loadRegs x =>
    exact execOutcome_commit_map
      (fun bs _ => (keepsAllBut_setRegsFrom s 0 bs).trans (keepsAllBut_advance _)) fun f hf =>
      readBytes_error hf ▸ faultListed_memoryBounds (.inr (.inr (.inr ⟨x, rfl⟩)))

/-- An execute step keeps a part that its instruction's row does not name, whether or not it takes a fault. -/
theorem exec_same (h : exec i s = .next t) (hp : p ∉ i.changes) (hfault : p ≠ .fault) : p.Same s t := by
  obtain ⟨f, -, rfl⟩ | hkeep := exec_cases h
  · exact keepsAllBut_takeFault s f p (mt List.mem_singleton.mp hfault)
  · exact hkeep p hp

theorem fault_notMem_changes (i : Instr) : .fault ∉ i.changes := by
  cases i
  all_goals exact of_decide_eq_true rfl

/-- A fault that an execute step ends with is one that it took. -/
theorem exec_takeFault (hs : s.fault = none) (h : exec i s = .next t) (ht : t.fault ≠ none) :
    ∃ f, FaultListed s i f ∧ t = s.takeFault f := by
  obtain hf | hkeep := exec_cases h
  · exact hf
  · have hsame : t.fault = s.fault := hkeep .fault (fault_notMem_changes i)
    exact absurd (hsame.trans hs) ht

/-- Settles O23: the only fault an execute step can end with is the listed one that it took. -/
theorem faultKindsRaisedOnlyAsListed : Obligations.FaultKindsRaisedOnlyAsListed := by
  intro i s t r hs h ht
  obtain ⟨f, hlisted, rfl⟩ := exec_takeFault hs h (by rw [ht]; exact Option.some_ne_none r)
  obtain rfl := Option.some.inj ht
  exact ⟨rfl, hlisted⟩

/-! ### Who writes each special part -/

theorem index_notMem_changes (hldI : ∀ a, i ≠ .ldI a) (haddI : ∀ x, i ≠ .addI x) (hldF : ∀ x, i ≠ .ldF x) :
    .index ∉ i.changes := by
  cases i
  case ldI a => exact absurd rfl (hldI a)
  case addI x => exact absurd rfl (haddI x)
  case ldF x => exact absurd rfl (hldF x)
  all_goals exact of_decide_eq_true rfl

theorem stack_notMem_changes (hcall : ∀ a, i ≠ .call a) (hret : i ≠ .ret) : .stack ∉ i.changes := by
  cases i
  case call a => exact absurd rfl (hcall a)
  case ret => exact absurd rfl hret
  all_goals exact of_decide_eq_true rfl

theorem dt_notMem_changes (h : ∀ x, i ≠ .ldDTVx x) : .dt ∉ i.changes := by
  cases i
  case ldDTVx x => exact absurd rfl (h x)
  all_goals exact of_decide_eq_true rfl

theorem st_notMem_changes (h : ∀ x, i ≠ .ldSTVx x) : .st ∉ i.changes := by
  cases i
  case ldSTVx x => exact absurd rfl (h x)
  all_goals exact of_decide_eq_true rfl

theorem pause_notMem_changes (h : ∀ x, i ≠ .ldVxK x) : .paused ∉ i.changes ∧ .wait ∉ i.changes := by
  cases i
  case ldVxK x => exact absurd rfl (h x)
  all_goals exact of_decide_eq_true rfl

theorem memory_notMem_changes (hldB : ∀ x, i ≠ .ldB x) (hstore : ∀ x, i ≠ .storeRegs x) : .memory ∉ i.changes := by
  cases i
  case ldB x => exact absurd rfl (hldB x)
  case storeRegs x => exact absurd rfl (hstore x)
  all_goals exact of_decide_eq_true rfl

theorem display_notMem_changes (hcls : i ≠ .cls) (hdrw : ∀ x y n, i ≠ .drw x y n) : .display ∉ i.changes := by
  cases i
  case cls => exact absurd rfl hcls
  case drw x y n => exact absurd rfl (hdrw x y n)
  all_goals exact of_decide_eq_true rfl

theorem environment_notMem_changes (i : Instr) : .inputs ∉ i.changes ∧ .cycles ∉ i.changes ∧ .cfg ∉ i.changes := by
  cases i
  all_goals exact of_decide_eq_true rfl

theorem exec_inputs (h : exec i s = .next t) : t.inputs = s.inputs :=
  exec_same h (environment_notMem_changes i).1 nofun

theorem exec_cycles (h : exec i s = .next t) : t.cycles = s.cycles :=
  exec_same h (environment_notMem_changes i).2.1 nofun

theorem exec_cfg (h : exec i s = .next t) : t.cfg = s.cfg := exec_same h (environment_notMem_changes i).2.2 nofun

/-- Settles O22: a part that an execute step changes stands in its instruction's row of `Instr.changes`. -/
theorem specialStateWrittenOnlyAsListed : Obligations.SpecialStateWrittenOnlyAsListed := fun _ _ _ h =>
  ⟨fun hldI haddI hldF => exec_same h (index_notMem_changes hldI haddI hldF) nofun,
    fun hcall hret => exec_same h (stack_notMem_changes hcall hret) nofun,
    fun hdt => exec_same h (dt_notMem_changes hdt) nofun,
    fun hst => exec_same h (st_notMem_changes hst) nofun,
    fun hwait => ⟨exec_same h (pause_notMem_changes hwait).1 nofun, exec_same h (pause_notMem_changes hwait).2 nofun⟩,
    fun hldB hstore => exec_same h (memory_notMem_changes hldB hstore) nofun,
    fun hcls hdrw => exec_same h (display_notMem_changes hcls hdrw) nofun,
    exec_inputs h, exec_cycles h, exec_cfg h⟩

end Sys2Proof.Machine
end

section
/-! SUPPORT. The cycle (spec/40_cycle.md R90-R101): what a step of a core without a fault can do, and the rules of the
fetch, the pause, the timers and the halt that follow from it. -/
namespace Sys2Proof.Machine
open Sys2Proof.Claims

variable {s t u : State} {i : Instr} {w : Word} {f : Fault} {x : RegIdx}

/-! ### When a word can be fetched and decoded -/

theorem pc_inside_of_fetch (h : s.fetch = .ok w) : s.pc.toNat + 1 < memSize := by
  by_contra hout
  rw [fetch_outside s (Nat.le_of_not_lt hout)] at h
  cases h

theorem nextInstr_eq_some :
    s.nextInstr = some i ↔ s.fault = none ∧ s.paused = false ∧ ∃ w, s.fetch = .ok w ∧ decode w = .ok i := by
  constructor
  · intro h
    unfold State.nextInstr at h
    split at h
    case isTrue => cases h
    case isFalse hlive =>
      simp only [State.Halted, Bool.or_eq_true, not_or, Bool.not_eq_true, Option.isSome_eq_false_iff,
        Option.isNone_iff_eq_none] at hlive
      split at h
      case h_1 => cases h
      case h_2 w hw =>
        split at h
        case h_1 j hj => exact ⟨hlive.1, hlive.2, w, hw, hj.trans (congrArg Except.ok (Option.some.inj h))⟩
        case h_2 => cases h
  · rintro ⟨hfault, hpaused, w, hw, hi⟩
    simp [State.nextInstr, State.Halted, hfault, hpaused, hw, hi]

theorem nextInstr_of_paused (h : s.paused = true) : s.nextInstr = none := by
  simp only [State.nextInstr, h, Bool.or_true, if_true]

/-! ### The step, case by case -/

theorem step_of_halted (h : s.fault ≠ none) : step s = .next s := if_pos (Option.isSome_iff_ne_none.mpr h)

theorem step_of_paused (hfault : s.fault = none) (hpaused : s.paused = true) : step s = .next s.resume.endCycle := by
  simp [step, cycle, hfault, hpaused]

theorem step_of_fetch_error (hfault : s.fault = none) (hpaused : s.paused = false) (hfetch : s.fetch = .error f) :
    step s = .next (s.takeFault f) := by
  simp [step, cycle, hfault, hpaused, runCycle, hfetch]

theorem step_of_decode_error {e : DecodeError} (hfault : s.fault = none) (hpaused : s.paused = false)
    (hfetch : s.fetch = .ok w) (hdecode : decode w = .error e) : step s = .next (s.takeFault (.unknownOpcode w)) := by
  simp [step, cycle, hfault, hpaused, runCycle, hfetch, runWord, hdecode]

theorem step_of_exec (hnext : s.nextInstr = some i) (hexec : exec i s = .next t) : step s = .next t.endCycle := by
  rw [step_of_nextInstr hnext, hexec, finishCycle]

/-! ### The end of the cycle and the resume step -/

theorem keepsAllBut_endCycle (s : State) : KeepsAllBut [.dt, .st, .inputs, .cycles] s s.endCycle := by
  intro p hp
  have hsame := Part.Same.refl p s
  cases hfault : s.fault with
  | some r => rwa [endCycle_faulted hfault]
  | none =>
    rw [endCycle_running hfault]
    cases p
    case dt | st | inputs | cycles => exact absurd (by decide) hp
    all_goals exact hsame

theorem endCycle_fault (s : State) : s.endCycle.fault = s.fault := keepsAllBut_endCycle s .fault (by decide)

theorem endCycle_dt (h : s.fault = none) : s.endCycle.dt = countedDown s.dt := by
  rw [endCycle_running h]
  rfl

theorem endCycle_st (h : s.fault = none) : s.endCycle.st = countedDown s.st := by
  rw [endCycle_running h]
  rfl

theorem endCycle_inputs (h : s.fault = none) : s.endCycle.inputs = s.inputs.tail := by
  rw [endCycle_running h]
  rfl

theorem endCycle_cycles (h : s.fault = none) : s.endCycle.cycles = s.cycles + 1 := by
  rw [endCycle_running h]
  rfl

theorem keepsAllBut_resume (s : State) : KeepsAllBut [.regs, .paused] s s.resume := by
  obtain ⟨-, h⟩ | ⟨k, -, h⟩ := resume_cases s
  all_goals rw [h]
  · exact fun p _ => Part.Same.refl p s
  · exact (keepsAllBut_setReg s s.w (zextKey k)).trans (keepsAllBut_setPaused _ false)

theorem resume_of_keyEvent {k : Key} (h : s.keyEvent = some k) :
    s.resume = { s.setReg s.w (zextKey k) with paused := false } := by
  rw [State.resume, h]

theorem resume_fault (s : State) : s.resume.fault = s.fault := keepsAllBut_resume s .fault (by decide)

theorem resume_reg_other {j : RegIdx} (hj : j ≠ s.w) : s.resume.reg j = s.reg j := by
  obtain ⟨-, h⟩ | ⟨k, -, h⟩ := resume_cases s
  all_goals rw [h]
  exact reg_setReg_other s (zextKey k) hj

/-! ### What a step of a core without a fault can do -/

/-- A step of a core without a fault takes a fault and changes nothing else, or is a paused cycle, or executes an
instruction that takes none. -/
inductive LiveStep (s : State) : State → Prop where
  | faulted (f : Fault) : LiveStep s (s.takeFault f)
  | paused (hpaused : s.paused = true) : LiveStep s s.resume.endCycle
  | executed {i : Instr} {u : State} (hnext : s.nextInstr = some i) (hexec : exec i s = .next u)
      (hu : u.fault = none) : LiveStep s u.endCycle

theorem liveStep_of_step (hs : s.fault = none) (h : step s = .next t) : LiveStep s t := by
  obtain ⟨hhalted, -⟩ | ⟨-, hpaused, rfl⟩ | ⟨-, -, f, -, rfl⟩ | ⟨-, -, w, e, -, -, rfl⟩ |
    ⟨-, hpaused, w, i, u, hw, hi, hexec, rfl⟩ := step_cases h
  · simp [hs] at hhalted
  · exact .paused hpaused
  · exact .faulted f
  · exact .faulted (.unknownOpcode w)
  · by_cases hu : u.fault = none
    · exact .executed (nextInstr_eq_some.mpr ⟨hs, hpaused, w, hw, hi⟩) hexec hu
    · obtain ⟨f, -, rfl⟩ := exec_takeFault hs hexec hu
      exact .faulted f

/-- Settles O16: each way a step can go answers a next state, and no part of it writes a parameter. -/
theorem everyStepContinues : Obligations.EveryStepContinues := by
  intro s
  by_cases hs : s.fault = none
  · cases hpaused : s.paused with
    | true =>
      exact ⟨_, step_of_paused hs hpaused,
        ((keepsAllBut_resume s).trans (keepsAllBut_endCycle s.resume)) .cfg (by decide)⟩
    | false =>
      cases hw : s.fetch with
      | error f => exact ⟨_, step_of_fetch_error hs hpaused hw, rfl⟩
      | ok w =>
        cases hi : decode w with
        | error e => exact ⟨_, step_of_decode_error hs hpaused hw hi, rfl⟩
        | ok i =>
          obtain ⟨u, hexec⟩ := exec_eq_next i s
          have hcfg : u.endCycle.cfg = u.cfg := keepsAllBut_endCycle u .cfg (by decide)
          exact ⟨_, step_of_exec (nextInstr_eq_some.mpr ⟨hs, hpaused, w, hw, hi⟩) hexec, hcfg.trans (exec_cfg hexec)⟩
  · exact ⟨s, step_of_halted hs, rfl⟩

/-- By induction on the number of steps. -/
theorem run_of_step_self (M : Host.Core) {σ : M.State} (h : M.step σ = .next σ) (n : Nat) : M.run n σ = .next σ := by
  induction n with
  | zero => rfl
  | succ n ih =>
    rw [Host.Core.run, h]
    exact ih

/-- Settles O10: a halted core steps to itself. -/
theorem haltedCoreNeverChanges : Obligations.HaltedCoreNeverChanges := fun _ n hs =>
  run_of_step_self Sys2Proof.core (step_of_halted (Option.isSome_iff_ne_none.mp hs)) n

/-! ### Fetch, decode and execute -/

theorem stepTakesFault_of_step (h : step s = .next (s.takeFault f)) : StepTakesFault s f :=
  ⟨_, h, rfl, keepsAllBut_takeFault s f⟩

/-- Settles O6: the bytes at pc are the fetched word, and the end of the cycle adds nothing to a fault. -/
theorem stepRunsTheDecodedInstruction : Obligations.StepRunsTheDecodedInstruction := by
  intro s t i hs hpaused hpc hi hexec
  have hnext : s.nextInstr = some i := nextInstr_eq_some.mpr ⟨hs, hpaused, _, fetch_inside s hpc, hi⟩
  refine ⟨t.endCycle, step_of_exec hnext hexec, fun ht => ?_, fun ht => ?_⟩
  · exact ⟨endCycle_dt ht, endCycle_st ht, endCycle_inputs ht, endCycle_cycles ht, keepsAllBut_endCycle t⟩
  · obtain ⟨r, hr⟩ := Option.ne_none_iff_exists'.mp ht
    exact endCycle_faulted hr

/-- Settles O8: the first address outside memory is the larger of pc and 0x1000. -/
theorem fetchOutsideMemoryFaults : Obligations.FetchOutsideMemoryFaults := by
  intro s hs hpaused
  have hfault (h : memSize ≤ s.pc.toNat + 1) : StepTakesFault s (.memoryBounds (max s.pc.toNat memSize)) :=
    stepTakesFault_of_step (step_of_fetch_error hs hpaused (fetch_outside s h))
  constructor
  · intro hpc
    have hmax : max s.pc.toNat memSize = 0x1000 := by rw [hpc]; decide
    exact hmax ▸ hfault (by rw [hpc]; decide)
  · intro hpc
    have hmax : max s.pc.toNat memSize = s.pc.toNat := Nat.max_eq_left hpc
    exact hmax ▸ hfault (Nat.le_succ_of_le hpc)

/-- Settles O9: a word that decodes to no instruction is refused by the decoder. -/
theorem illegalWordFaults : Obligations.IllegalWordFaults := by
  intro s w hs hpaused hw hillegal
  cases hi : decode w with
  | ok i => exact absurd hi (hillegal i)
  | error e => exact stepTakesFault_of_step (step_of_decode_error hs hpaused hw hi)

/-! ### The placed word -/

theorem readyToFetch_pc_inside (s : State) : s.readyToFetch.pc.toNat + 1 < memSize := by
  unfold State.readyToFetch
  split
  · assumption
  · exact (by decide : pcReset.toNat + 1 < memSize)

/-- A word stored at pc in a canonical memory is what is fetched there. -/
theorem fetch_storeWordAtPc (hmem : s.MemCanonical) (hpc : s.pc.toNat + 1 < memSize) (w : Word) :
    (s.storeWordAtPc w).fetch = .ok w := by
  have hhi : (s.storeWordAtPc w).byte s.pc.toNat = hiByte w :=
    (readCell_writeCell_other (Nat.ne_of_lt (Nat.lt_succ_self _))).trans (readCell_writeCell_same hmem)
  have hlo : (s.storeWordAtPc w).byte (s.pc.toNat + 1) = loByte w :=
    readCell_writeCell_same (wf_writeCell (Nat.lt_of_succ_lt hpc) hmem)
  have hfetch := fetch_inside (s.storeWordAtPc w) hpc
  have hstored : (s.storeWordAtPc w).pc = s.pc := rfl
  rwa [hstored, hhi, hlo, wordOfBytes_hiByte_loByte] at hfetch

theorem fetch_withFetchWord (hmem : s.MemCanonical) (nbits w : Nat) :
    (s.withFetchWord nbits w).fetch = .ok (tableWord nbits w) :=
  fetch_storeWordAtPc (s := s.readyToFetch) hmem (readyToFetch_pc_inside s) _

theorem decode_of_decodeTableWord {nbits w : Nat} (h : decodeTableWord nbits w = some i) :
    decode (tableWord nbits w) = .ok i := by
  simp only [decodeTableWord, decodeBytes, wordOfBytes_hiByte_loByte] at h
  cases hdecode : decode (tableWord nbits w) with
  | ok j =>
    simp only [hdecode, Option.some.injEq] at h
    rw [h]
  | error e => simp [hdecode] at h

/-- Settles O7: the placed word is the one fetched, in a core that placing has made able to fetch. -/
theorem placedWordRunsNext : Obligations.PlacedWordRunsNext := by
  intro s t nbits w i hmem hi
  have hnext : (s.withFetchWord nbits w).nextInstr = some i :=
    nextInstr_eq_some.mpr ⟨rfl, rfl, _, fetch_withFetchWord hmem nbits w, decode_of_decodeTableWord hi⟩
  exact ⟨hnext, step_of_exec hnext⟩

/-! ### The pause -/

/-- A paused cycle is the resume step and the end of the cycle, which touch different parts. -/
theorem keepsAllBut_resume_endCycle (s : State) :
    KeepsAllBut [.regs, .paused, .dt, .st, .inputs, .cycles] s s.resume.endCycle :=
  (keepsAllBut_resume s).trans (keepsAllBut_endCycle s.resume)

theorem endCycle_reg (s : State) (j : RegIdx) : s.endCycle.reg j = s.reg j :=
  keepsAllBut_endCycle s .regs (by decide) j

theorem endCycle_paused (s : State) : s.endCycle.paused = s.paused := keepsAllBut_endCycle s .paused (by decide)

theorem resume_endCycle_reg_w {k : Key} (h : s.keyEvent = some k) :
    s.resume.endCycle.reg s.w = k.setWidth 8 := by
  rw [endCycle_reg, resume_of_keyEvent h]
  exact reg_setReg_same s s.w (zextKey k)

theorem resume_endCycle_dt (hs : s.fault = none) : s.resume.endCycle.dt = countedDown s.dt := by
  have hdt : s.resume.dt = s.dt := keepsAllBut_resume s .dt (by decide)
  rw [endCycle_dt ((resume_fault s).trans hs), hdt]

theorem resume_endCycle_st (hs : s.fault = none) : s.resume.endCycle.st = countedDown s.st := by
  have hst : s.resume.st = s.st := keepsAllBut_resume s .st (by decide)
  rw [endCycle_st ((resume_fault s).trans hs), hst]

theorem resume_endCycle_reg_other {j : RegIdx} (hj : j ≠ s.w) : s.resume.endCycle.reg j = s.reg j :=
  (endCycle_reg _ j).trans (resume_reg_other hj)

/-- Settles O11: the paused cycle's resume step does nothing without a key event, and the end of the cycle follows. -/
theorem pausedCycleWaitsForKey : Obligations.PausedCycleWaitsForKey := by
  intro s hs hpaused
  have hresume : s.resume.fault = none := (resume_fault s).trans hs
  have hinputs : s.resume.inputs = s.inputs := keepsAllBut_resume s .inputs (by decide)
  have hcycles : s.resume.cycles = s.cycles := keepsAllBut_resume s .cycles (by decide)
  refine ⟨s.resume.endCycle, step_of_paused hs hpaused, resume_endCycle_dt hs, resume_endCycle_st hs,
    hinputs ▸ endCycle_inputs hresume, hcycles ▸ endCycle_cycles hresume, fun hkey => ?_, fun k hkey => ?_⟩
  · have hnone : s.resume = s := by rw [State.resume, hkey]
    rw [hnone]
    exact keepsAllBut_endCycle s
  · refine ⟨?_, resume_endCycle_reg_w hkey, fun j => resume_endCycle_reg_other, keepsAllBut_resume_endCycle s⟩
    rw [endCycle_paused, resume_of_keyEvent hkey]

theorem exec_ldVxK_of_paused (hs : s.paused = false) (h : exec i s = .next t) (ht : t.paused = true) :
    ∃ x, i = .ldVxK x := by
  by_contra hno
  have hsame : t.paused = s.paused := exec_same h (pause_notMem_changes (not_exists.mp hno)).1 nofun
  exact Bool.false_ne_true (hs.symm.trans (hsame.symm.trans ht))

/-- Settles O12: among the ways a step can go only an executed `Fx0A` sets the flag, and only the resume step of a
paused cycle clears it. -/
theorem pausedFlagSetAndCleared : Obligations.PausedFlagSetAndCleared := by
  intro s t hs h
  refine ⟨fun hpaused ht => ?_, fun x hnext => ?_, fun hpaused ht => ?_, fun hpaused => ?_⟩
  · cases liveStep_of_step hs h with
    | faulted f => exact absurd (hpaused.symm.trans ht) Bool.false_ne_true
    | paused hp => exact absurd (hpaused.symm.trans hp) Bool.false_ne_true
    | executed hnext hexec _ =>
      obtain ⟨x, rfl⟩ := exec_ldVxK_of_paused hpaused hexec ((endCycle_paused _).symm.trans ht)
      exact ⟨x, hnext⟩
  · obtain rfl := Host.Outcome.next.inj ((step_of_exec hnext rfl).symm.trans h)
    exact endCycle_paused _
  all_goals obtain rfl := Host.Outcome.next.inj ((step_of_paused hs hpaused).symm.trans h)
  · obtain ⟨-, hresume⟩ | ⟨k, hkey, -⟩ := resume_cases s
    · rw [endCycle_paused, hresume, hpaused] at ht
      cases ht
    · exact ⟨k, hkey, resume_endCycle_reg_w hkey⟩
  · exact ⟨nextInstr_of_paused hpaused, resume_endCycle_dt hs, resume_endCycle_st hs,
      fun j => resume_endCycle_reg_other, keepsAllBut_resume_endCycle s⟩

/-! ### Faults and timers -/

/-- Settles O13: of the ways a step can go only taking a fault leaves one in the latch. -/
theorem faultingCycleCommitsNothing : Obligations.FaultingCycleCommitsNothing := by
  intro s t hs h ht
  cases liveStep_of_step hs h with
  | faulted f => exact ⟨keepsAllBut_takeFault s f, f, rfl⟩
  | paused _ => exact absurd ((endCycle_fault _).trans ((resume_fault s).trans hs)) ht
  | executed _ _ hu => exact absurd ((endCycle_fault _).trans hu) ht

theorem exec_dt (h : exec i s = .next t) (hi : ∀ x, i ≠ .ldDTVx x) : t.dt = s.dt :=
  exec_same h (dt_notMem_changes hi) nofun

theorem exec_st (h : exec i s = .next t) (hi : ∀ x, i ≠ .ldSTVx x) : t.st = s.st :=
  exec_same h (st_notMem_changes hi) nofun

/-- Settles O14: the end of a live cycle counts down what the instruction left in the timers. -/
theorem timersCountEveryLiveCycle : Obligations.TimersCountEveryLiveCycle := by
  intro s t hs h ht
  cases liveStep_of_step hs h with
  | faulted f => cases ht
  | paused hpaused =>
    rw [nextInstr_of_paused hpaused]
    exact ⟨fun _ => resume_endCycle_dt hs, nofun, fun _ => resume_endCycle_st hs, nofun⟩
  | executed hnext hexec hu =>
    rw [hnext, endCycle_dt hu, endCycle_st hu]
    refine ⟨fun hi => ?_, fun x hi => ?_, fun hi => ?_, fun x hi => ?_⟩
    · rw [exec_dt hexec fun x hx => hi x (congrArg some hx)]
    · obtain rfl := Option.some.inj hi
      obtain rfl := Host.Outcome.next.inj hexec
      rfl
    · rw [exec_st hexec fun x hx => hi x (congrArg some hx)]
    · obtain rfl := Option.some.inj hi
      obtain rfl := Host.Outcome.next.inj hexec
      rfl

end Sys2Proof.Machine
end

section
/-! SUPPORT. The invariant of the machine: every step keeps canonical memory, the bound of the stack and of its return
addresses, and the bound of pc (spec/10_state.md R24, R26, spec/41_flow.md R108). -/
namespace Sys2Proof.Machine

variable {s t : State} {i : Instr} {α : Type}

/-- What holds of the state a fault leaves and of every state the operation answers holds after the commit. -/
theorem commit_map_induction {motive : State → Prop} {r : Except Fault α} {g : α → State}
    (hfault : ∀ f, motive (s.takeFault f)) (hok : ∀ u, r = .ok u → motive (g u)) : motive (s.commit (r.map g)) := by
  cases r with
  | error f => exact hfault f
  | ok u => exact hok u rfl

/-! ### The parts that the invariant speaks of -/

/-- The invariant speaks of memory, the parameters, the stack and pc alone. -/
theorem State.Inv.congr (hs : s.Inv) (hmem : t.mem = s.mem) (hcfg : t.cfg = s.cfg) (hstack : t.stack = s.stack)
    (hpc : t.pc = s.pc) : t.Inv where
  memCanonical := by
    rw [State.MemCanonical, hmem, hcfg]
    exact hs.memCanonical
  stackBounded := by
    rw [State.StackBounded, hstack, hcfg]
    exact hs.stackBounded
  stackInRange := by
    rw [State.StackInRange, hstack]
    exact hs.stackInRange
  pcInRange := by
    rw [State.PcInRange, hpc]
    exact hs.pcInRange

theorem endCycle_inv (hs : s.Inv) : s.endCycle.Inv := by
  cases hfault : s.fault with
  | some r => rwa [endCycle_faulted hfault]
  | none =>
    rw [endCycle_running hfault]
    exact hs.congr rfl rfl rfl rfl

theorem resume_inv (hs : s.Inv) : s.resume.Inv := by
  obtain ⟨-, h⟩ | ⟨k, -, h⟩ := resume_cases s
  all_goals
    rw [h]
    exact hs.congr rfl rfl rfl rfl

/-- Only `Fx33` and `Fx55` write memory, and a block write keeps the canonical form. -/
theorem exec_memCanonical (hs : s.MemCanonical) (h : exec i s = .next t) : t.MemCanonical := by
  cases i
  all_goals obtain rfl := Host.Outcome.next.inj h
  case ret =>
    refine commit_map_induction (motive := State.MemCanonical) (fun _ => hs) fun r hr => ?_
    rw [(pop_ok hr).2]
    exact hs
  case call =>
    refine commit_map_induction (motive := State.MemCanonical) (fun _ => hs) fun u hu => ?_
    rw [(push_ok hu).2]
    exact hs
  case drw =>
    refine commit_map_induction (motive := State.MemCanonical) (fun _ => hs) fun u hu => ?_
    obtain ⟨fb, flag, rfl⟩ := drawSprite_ok hu
    exact hs
  case loadRegs =>
    refine commit_map_induction (motive := State.MemCanonical) (fun _ => hs) fun bs _ => ?_
    rw [setRegsFrom_onlyRegs]
    exact hs
  case skp | sknp => exact commit_map_induction (motive := State.MemCanonical) (fun _ => hs) fun _ _ => hs
  case ldB | storeRegs =>
    exact commit_map_induction (motive := State.MemCanonical) (fun _ => hs) fun u hu =>
      (writeBytes_canonical hu hs : u.MemCanonical)
  all_goals exact hs

/-- From `s` to `t` the stack is left alone, or popped, or has pc + 2 pushed on it when it is not full. -/
def StackOutcome (s t : State) : Prop :=
  t.stack = s.stack ∨ (∃ a, s.stack = a :: t.stack) ∨
    (t.stack = (s.pc + 2) :: s.stack ∧ s.cfg.stackDepth ≠ some s.stack.length)

theorem exec_stack_cases (h : exec i s = .next t) : StackOutcome s t := by
  by_cases hcall : ∃ a, i = .call a
  · obtain ⟨a, rfl⟩ := hcall
    obtain rfl := Host.Outcome.next.inj h
    refine commit_map_induction (motive := StackOutcome s) (fun _ => .inl rfl) fun u hu => .inr (.inr ?_)
    obtain ⟨hroom, rfl⟩ := push_ok hu
    exact ⟨rfl, hroom⟩
  · by_cases hret : i = .ret
    · subst hret
      obtain rfl := Host.Outcome.next.inj h
      exact commit_map_induction (motive := StackOutcome s) (fun _ => .inl rfl) fun r hr =>
        .inr (.inl ⟨r.1, (pop_ok hr).1⟩)
    · exact .inl (exec_same h (stack_notMem_changes (not_exists.mp hcall) hret) nofun)

/-- A PC-setting instruction sets pc to a popped return address, or to an address that V0 may offset. -/
theorem exec_pc_of_setsPc (h : exec i s = .next t) (ht : t.fault = none) (hset : i.setsPc = true) :
    t.pc ∈ s.stack ∨ t.pc.toNat ≤ 0x10FE := by
  cases i
  case ret =>
    obtain rfl := Host.Outcome.next.inj h
    obtain ⟨r, hr, hcommit⟩ := commit_map_of_fault_none ht
    rw [hcommit, (pop_ok hr).1]
    exact .inl List.mem_cons_self
  case call addr =>
    obtain rfl := Host.Outcome.next.inj h
    obtain ⟨u, -, hcommit⟩ := commit_map_of_fault_none ht
    have haddr := addr.isLt
    rw [hcommit, setPc_pc, zextAddr, BitVec.toNat_setWidth]
    omega
  case jp addr =>
    obtain rfl := Host.Outcome.next.inj h
    have haddr := addr.isLt
    rw [setPc_pc, zextAddr, BitVec.toNat_setWidth]
    omega
  case jpV0 addr =>
    obtain rfl := Host.Outcome.next.inj h
    have haddr := addr.isLt
    have hV0 := (s.reg 0#4).isLt
    rw [setPc_pc, zextAddr, zextByte, BitVec.toNat_add, BitVec.toNat_setWidth, BitVec.toNat_setWidth]
    omega
  all_goals cases hset

/-- From a pc at which a word was fetched an advance does not wrap. -/
theorem advance_toNat_le {p d : Word} (hp : p.toNat + 1 < memSize) (hd : d.toNat ≤ 4) :
    (p + d).toNat ≤ 0xFFE + d.toNat := by
  have hlt : p.toNat + 1 < 4096 := hp
  rw [BitVec.toNat_add]
  omega

/-- From a pc at which a word was fetched an execute step keeps pc in range: it advances by at most 4, or the target is
a return address or the sum of an address and V0. -/
theorem exec_pcInRange (hs : s.fault = none) (hstack : s.StackInRange) (hpc : s.pc.toNat + 1 < memSize)
    (h : exec i s = .next t) (ht : t.fault = none) : t.PcInRange := by
  cases hset : i.setsPc with
  | true =>
    obtain hmem | hle := exec_pc_of_setsPc h ht hset
    · exact (hstack _ hmem).trans (by decide)
    · exact hle
  | false =>
    obtain ⟨hplain, hskip⟩ := pcAdvancesUnlessSet i s t hs h ht hset
    have hadvance : t.pc = s.pc + 4 ∨ t.pc = s.pc + 2 := by
      cases hisSkip : i.isSkip with
      | true => exact hskip hisSkip
      | false => exact .inr (hplain hisSkip)
    obtain h4 | h2 := hadvance
    · rw [State.PcInRange, h4]
      exact (advance_toNat_le hpc (by decide)).trans (by decide)
    · rw [State.PcInRange, h2]
      exact (advance_toNat_le hpc (by decide)).trans (by decide)

theorem exec_stackBounded (hs : s.StackBounded) (h : exec i s = .next t) : t.StackBounded := by
  intro d hd
  rw [exec_cfg h] at hd
  have hle := hs d hd
  obtain hsame | ⟨a, hpop⟩ | ⟨hpush, hroom⟩ := exec_stack_cases h
  · rwa [hsame]
  · rw [hpop] at hle
    exact Nat.le_of_succ_le hle
  · have hne : s.stack.length ≠ d := fun e => hroom (hd.trans (congrArg some e.symm))
    rw [hpush]
    exact Nat.lt_of_le_of_ne hle hne

theorem exec_stackInRange (hs : s.StackInRange) (hpc : s.pc.toNat + 1 < memSize) (h : exec i s = .next t) :
    t.StackInRange := by
  intro a ha
  obtain hsame | ⟨b, hpop⟩ | ⟨hpush, -⟩ := exec_stack_cases h
  · exact hs a (hsame ▸ ha)
  · exact hs a (hpop ▸ List.mem_cons_of_mem b ha)
  · rw [hpush] at ha
    obtain rfl | hold := List.mem_cons.mp ha
    · exact advance_toNat_le hpc (by decide)
    · exact hs a hold

/-- Settles O17: a fault and a paused cycle touch nothing the invariant speaks of, and an executed instruction was
fetched, so pc is below 0xFFF when it advances or is pushed. -/
theorem stepKeepsInvariant : Obligations.StepKeepsInvariant := by
  intro s t hInv h
  by_cases hs : s.fault = none
  · cases liveStep_of_step hs h with
    | faulted f => exact hInv.congr rfl rfl rfl rfl
    | paused _ => exact endCycle_inv (resume_inv hInv)
    | executed hnext hexec hu =>
      obtain ⟨-, -, w, hw, -⟩ := nextInstr_eq_some.mp hnext
      have hpc := pc_inside_of_fetch hw
      obtain ⟨hmem, hbounded, hrange, -⟩ := hInv
      exact endCycle_inv ⟨exec_memCanonical hmem hexec, exec_stackBounded hbounded hexec,
        exec_stackInRange hrange hpc hexec, exec_pcInRange hs hrange hpc hexec hu⟩
  · obtain rfl := Host.Outcome.next.inj ((step_of_halted hs).symm.trans h)
    exact hInv

/-- Settles O18: the reset state has no cell, no return address and pc 0x200 under every parameter. -/
theorem resetMeetsInvariant : Obligations.ResetMeetsInvariant := ⟨resetWith_inv defaultConfig, resetWith_inv⟩

end Sys2Proof.Machine
end

section
/-! SUPPORT. The illegal words (spec/30_encoding.md R79): which words each family of the decoder refuses. -/
namespace Sys2Proof

variable {w : Word}

theorem ite_ok_eq_error {c : Prop} [Decidable c] {i : Instr} {r : Except DecodeError Instr} {e : DecodeError} :
    (if c then .ok i else r) = .error e ↔ ¬c ∧ r = .error e := by
  split <;> simp [*]

theorem decodeSystem_illegal_iff : decodeSystem w = .error (.illegal w) ↔ w ≠ 0x00E0#16 ∧ w ≠ 0x00EE#16 := by
  simp only [decodeSystem, ite_ok_eq_error, and_true, ne_eq]

theorem decodeKeys_illegal_iff : decodeKeys w = .error (.illegal w) ↔ nnField w ∉ [0x9E#8, 0xA1#8] := by
  simp [decodeKeys, ite_ok_eq_error]

theorem decodeMisc_illegal_iff : decodeMisc w = .error (.illegal w) ↔
    nnField w ∉ [0x07#8, 0x0A#8, 0x15#8, 0x18#8, 0x1E#8, 0x29#8, 0x33#8, 0x55#8, 0x65#8] := by
  simp [decodeMisc, ite_ok_eq_error]

/-- Family 8 refuses the low nibbles that its nine tests leave. -/
theorem decodeAlu_illegal_iff : decodeAlu w = .error (.illegal w) ↔
    nField w ∈ [0x8#4, 0x9#4, 0xA#4, 0xB#4, 0xC#4, 0xD#4, 0xF#4] := by
  simp only [decodeAlu, ite_ok_eq_error, and_true]
  generalize nField w = n
  revert n
  decide

theorem nibble_cases : ∀ n : Nibble, n = 0x0#4 ∨ n = 0x1#4 ∨ n = 0x2#4 ∨ n = 0x3#4 ∨ n = 0x4#4 ∨ n = 0x5#4 ∨
    n = 0x6#4 ∨ n = 0x7#4 ∨ n = 0x8#4 ∨ n = 0x9#4 ∨ n = 0xA#4 ∨ n = 0xB#4 ∨ n = 0xC#4 ∨ n = 0xD#4 ∨ n = 0xE#4 ∨
    n = 0xF#4 := by
  decide

/-- Settles O5: the sixteen families one by one; ten of them refuse no word. -/
theorem illegalWordsAreTheSixFamilies : Obligations.IllegalWordsAreTheSixFamilies := by
  intro w
  obtain hop | hop | hop | hop | hop | hop | hop | hop | hop | hop | hop | hop | hop | hop | hop | hop :=
    nibble_cases (opField w)
  all_goals simp [decode, hop, decodeSystem_illegal_iff, decodeAlu_illegal_iff, decodeKeys_illegal_iff,
    decodeMisc_illegal_iff]

end Sys2Proof
end

section
/-! SUPPORT. The reset state and the refused load (spec/10_state.md R37, spec/70_reset_and_hazards.md R201). -/
namespace Sys2Proof.Machine

variable {c : Config} {a : Nat}

theorem resetWith_byte_font (h : a < 80) : (State.resetWith c).byte a = c.font[a] := dif_pos h

theorem resetWith_byte_zero (h : 80 ≤ a) : (State.resetWith c).byte a = 0#8 := dif_neg (Nat.not_lt.mpr h)

theorem resetWith_reg (c : Config) (x : RegIdx) : (State.resetWith c).reg x = 0#8 :=
  Vector.getElem_replicate x.isLt

theorem resetWith_pixel (c : Config) (px : Fin 64) (py : Fin 32) : (State.resetWith c).pixel px py = false := by
  simp [State.pixel, State.resetWith]

/-- Settles O25: memory lists no cell at reset, and every other field is written out in the reset state. -/
theorem resetValues : Obligations.ResetValues := fun c =>
  ⟨fun _ => resetWith_byte_font, fun _ => resetWith_byte_zero, resetWith_reg c, resetWith_pixel c,
    rfl, rfl, rfl, rfl, rfl, rfl, rfl, rfl, rfl, rfl, rfl⟩

/-- Settles O27: the load is refused before it writes. -/
theorem tooLargeProgramWritesNothing : Obligations.TooLargeProgramWritesNothing := by
  intro c bytes hlen
  have hlarge : progBase + bytes.length > memSize := Nat.add_lt_add_left hlen 0x200
  have hlaunch : State.launch c bytes = (State.resetWith c).takeFault (.programTooLarge bytes.length) := if_pos hlarge
  rw [hlaunch]
  exact ⟨rfl, keepsAllBut_takeFault _ _⟩

/-- Settles O28: the two bytes at 0x200 are 0 at reset, and 0x0000 is illegal. -/
theorem unloadedCoreFaults : Obligations.UnloadedCoreFaults := by
  intro c
  have hpc : (State.resetWith c).pc.toNat = 0x200 := rfl
  have hfetch : (State.resetWith c).fetch = .ok 0x0000#16 := by
    rw [fetch_inside _ (by rw [hpc]; decide), hpc, resetWith_byte_zero (by decide), resetWith_byte_zero (by decide)]
    rfl
  exact stepTakesFault_of_step (step_of_decode_error rfl rfl hfetch rfl)

end Sys2Proof.Machine
end

section
/-! SUPPORT. Control transfer, computed jump, random byte, keys, timers and index arithmetic (spec/41_flow.md,
spec/43_index_random_draw.md R141, R142, spec/44_keys_timers_memory.md R150-R157). -/
namespace Sys2Proof.Machine
open Sys2Proof.Claims

variable {s : State} {i : Instr} {op : Nibble} {x : RegIdx} {nn : Byte} {f : Fault} {α : Type}

/-! ### Encoding lines of format XS -/

theorem wordX_eq_encodeXNN : wordX (encodeXNN op 0#4 nn) x = encodeXNN op x nn := by
  rw [wordX, regSetWidth_shiftLeft_eq_encodeXNN, encodeXNN_or, BitVec.or_zero, BitVec.zero_or, BitVec.or_zero]

/-- An encoding line of format XS, its first word written as the digit `op`, register 0 and the constant byte. -/
theorem encodedAs_wordX (op : Nibble) (nn : Byte) (h : encode i = encodeXNN op x nn) :
    EncodedAs i (wordX (encodeXNN op 0#4 nn) x) i.row.mask := by
  rw [wordX_eq_encodeXNN, ← h]
  exact encodedAs_encode i

/-! ### Execute steps that may fault -/

theorem exec_of_ok {r : Except Fault α} {g : α → State} {u : α} (h : exec i s = .next (s.commit (r.map g)))
    (hr : r = .ok u) : exec i s = .next (g u) := by
  rw [h, hr]
  rfl

theorem takesFault_of_error {r : Except Fault α} {g : α → State} (h : exec i s = .next (s.commit (r.map g)))
    (hr : r = .error f) : TakesFault i s f := by
  refine ⟨s.takeFault f, ?_, rfl, keepsAllBut_takeFault s f⟩
  rw [h, hr]
  rfl

theorem pop_of_stack {a : Word} {rest : List Word} (h : s.stack = a :: rest) :
    s.pop = .ok (a, { s with stack := rest }) := by
  rw [State.pop, h]

/-- Settles O30: a pop answers the top of the stack, or StackUnderflow. -/
theorem retPopsReturnAddress : Obligations.RetPopsReturnAddress := by
  refine ⟨encodedAs_encode .ret, fun s a rest hstack => ?_, fun s hstack => ?_⟩
  · exact ⟨_, exec_of_ok rfl (pop_of_stack hstack), rfl, rfl,
      ((keepsAllBut_setStack s rest).trans (keepsAllBut_setPc _ a)).mono (by decide)⟩
  · have hpop : s.pop = .error .stackUnderflow := by rw [State.pop, hstack]
    exact takesFault_of_error rfl hpop

/-- Settles O31: the jump sets pc alone. -/
theorem jpSetsPc : Obligations.JpSetsPc := fun addr =>
  ⟨encodedAs_wordA 0x1#4 rfl, fun s => ⟨s.setPc (zextAddr addr), rfl, rfl, keepsAllBut_setPc s _⟩⟩

/-- Settles O32: a push answers StackOverflow exactly when the stack holds STACK_DEPTH entries. -/
theorem callPushesReturnAddress : Obligations.CallPushesReturnAddress := by
  refine fun addr => ⟨encodedAs_wordA 0x2#4 rfl, fun s => ?_⟩
  obtain ⟨hfull, hpush⟩ | ⟨hroom, hpush⟩ := push_cases s (s.pc + 2)
  · exact ⟨fun hroom => absurd hfull hroom, fun _ => takesFault_of_error rfl hpush⟩
  · exact ⟨fun _ => ⟨_, exec_of_ok rfl hpush, rfl, rfl,
      ((keepsAllBut_setStack s _).trans (keepsAllBut_setPc _ (zextAddr addr))).mono (by decide)⟩,
      fun hfull => absurd hfull hroom⟩

/-- Settles O34: each skip is the skip mechanism on its comparison, and a nonzero low nibble is of R79's families. -/
theorem skipsOnRegisters : Obligations.SkipsOnRegisters := by
  refine ⟨fun w hop hn => (illegalWordsAreTheSixFamilies w).mpr ?_, fun x y =>
    ⟨encodedAs_wordXY 0x5#4 0x0#4 rfl, encodedAs_wordXY 0x9#4 0x0#4 rfl, fun s => ⟨?_, ?_⟩⟩⟩
  · obtain h5 | h9 := hop
    · exact .inr (.inl ⟨h5, hn⟩)
    · exact .inr (.inr (.inr (.inl ⟨h9, hn⟩)))
  · exact ⟨s.skipIf (s.reg x == s.reg y), rfl, skipIf_eq_pc s _ _, keepsAllBut_skipIf s _⟩
  · exact ⟨s.skipIf (s.reg x != s.reg y), rfl, skipIf_ne_pc s _ _, keepsAllBut_skipIf s _⟩

/-- Settles O43: an address and a byte are too small for their sum to wrap in 16 bits. -/
theorem jumpAddsV0 : Obligations.JumpAddsV0 := by
  refine fun addr => ⟨encodedAs_wordA 0xB#4 rfl, fun s =>
    ⟨s.setPc (zextAddr addr + zextByte (s.reg 0#4)), rfl, ?_, keepsAllBut_setPc s _⟩⟩
  have haddr := addr.isLt
  have hV0 := (s.reg 0#4).isLt
  rw [setPc_pc, zextAddr, zextByte, BitVec.toNat_add, BitVec.toNat_setWidth, BitVec.toNat_setWidth]
  omega

/-- Settles O44: the masked byte is written to `V[x]`, and the cycle's record is the first pending one. -/
theorem randomByteIsMasked : Obligations.RandomByteIsMasked := by
  refine fun x nn => ⟨encodedAs_wordXNN 0xC#4 rfl, fun s => ?_⟩
  obtain ⟨t, hexec, hx, hother, hpc, hkeep⟩ :=
    completes_of_setReg (i := .rnd x nn) (· = s.input.rand &&& nn) rfl rfl
  exact ⟨t, hexec, hx, fun r rest hinputs => by rw [State.input, hinputs], hother, hpc, hkeep⟩

/-! ### Keys -/

theorem keyPressed_setWidth {b : Byte} (h : b.toNat < 16) :
    s.keyPressed (b.setWidth 4) = s.input.pressed[b.toNat] := by
  have hkey : (b.setWidth 4).toNat = b.toNat := by
    rw [BitVec.toNat_setWidth]
    exact Nat.mod_eq_of_lt h
  simp only [State.keyPressed, hkey]

/-- Settles O48: a byte below 16 names the key whose state decides the skip, and any other byte names none. -/
theorem keySkips : Obligations.KeySkips := by
  refine fun x => ⟨encodedAs_wordX 0xE#4 0x9E#8 rfl, encodedAs_wordX 0xE#4 0xA1#8 rfl, fun s =>
    ⟨fun hkey => ⟨?_, ?_⟩, fun hlarge => ⟨?_, ?_⟩⟩⟩
  · refine ⟨_, exec_of_ok rfl (keyOfByte_of_lt hkey), ?_, keepsAllBut_skipIf s _⟩
    rw [skipIf_pc, keyPressed_setWidth hkey]
  · refine ⟨_, exec_of_ok rfl (keyOfByte_of_lt hkey), ?_, keepsAllBut_skipIf s _⟩
    rw [skipIf_pc, keyPressed_setWidth hkey]
    cases s.input.pressed[(s.reg x).toNat] <;> rfl
  · exact takesFault_of_error rfl (keyOfByte_of_le hlarge)
  · exact takesFault_of_error rfl (keyOfByte_of_le hlarge)

/-- Settles O50: the instruction sets the flag and the latch and advances. -/
theorem keyWaitPauses : Obligations.KeyWaitPauses := fun x =>
  ⟨encodedAs_wordX 0xF#4 0x0A#8 rfl, fun s => ⟨State.advance { s with paused := true, w := x }, rfl, rfl, rfl, rfl,
    ((keepsAllBut_setPaused s true).trans (keepsAllBut_setWait _ x)).trans (keepsAllBut_advance _)⟩⟩

/-! ### Timers -/

theorem fault_of_nextInstr (h : s.nextInstr = some i) : s.fault = none := (nextInstr_eq_some.mp h).1

/-- Settles O49: the read takes the old DT, and the end of the cycle counts DT down after it. -/
theorem readDelayTimer : Obligations.ReadDelayTimer := by
  refine fun x => ⟨encodedAs_wordX 0xF#4 0x07#8 rfl, fun s => completes_of_setReg (· = s.dt) rfl rfl, fun s hnext => ?_⟩
  have hs := fault_of_nextInstr hnext
  exact ⟨_, step_of_exec hnext rfl, (endCycle_reg _ x).trans (reg_setReg_same s x s.dt), endCycle_dt hs⟩

/-- Settles O51: the write is followed by the end of the cycle, which counts the written value down. -/
theorem setTimers : Obligations.SetTimers := by
  refine fun x => ⟨encodedAs_wordX 0xF#4 0x15#8 rfl, encodedAs_wordX 0xF#4 0x18#8 rfl,
    fun s => ⟨State.advance { s with dt := s.reg x }, rfl, rfl, rfl, ?_⟩,
    fun s => ⟨State.advance { s with st := s.reg x }, rfl, rfl, rfl, ?_⟩, fun s hnext => ?_, fun s hnext => ?_⟩
  · exact (keepsAllBut_setDelay s (s.reg x)).trans (keepsAllBut_advance _)
  · exact (keepsAllBut_setSound s (s.reg x)).trans (keepsAllBut_advance _)
  all_goals have hs := fault_of_nextInstr hnext
  · exact ⟨_, step_of_exec hnext rfl, endCycle_dt hs⟩
  · exact ⟨_, step_of_exec hnext rfl, endCycle_st hs⟩

/-! ### Index arithmetic -/

theorem zextByte_toNat (b : Byte) : (zextByte b).toNat = b.toNat := by
  have hb := b.isLt
  rw [zextByte, BitVec.toNat_setWidth]
  omega

/-- Five times a byte is below 65536 (R157). -/
theorem fontAddress_toNat (b : Byte) : (fontAddress b).toNat = b.toNat * 5 := by
  have hb := b.isLt
  have hfive : (5 : Word).toNat = 5 := rfl
  rw [fontAddress, BitVec.toNat_mul, zextByte_toNat, hfive]
  omega

/-- Settles O52: 16-bit addition is modulo 65536. -/
theorem addToIndex : Obligations.AddToIndex := by
  refine fun x => ⟨encodedAs_wordX 0xF#4 0x1E#8 rfl, fun s =>
    ⟨State.advance { s with i := s.i + zextByte (s.reg x) }, rfl, ?_, rfl,
      (keepsAllBut_setIndex s _).trans (keepsAllBut_advance _)⟩⟩
  rw [advance_i, BitVec.toNat_add, zextByte_toNat]

end Sys2Proof.Machine

namespace Sys2Proof
open Sys2Proof.Machine

/-- Settles O53: the product is exact. -/
theorem fontAddress : Obligations.FontAddress := fun x =>
  ⟨encodedAs_wordX 0xF#4 0x29#8 rfl, fun s =>
    ⟨State.advance { s with i := Machine.fontAddress (s.reg x) }, rfl, fontAddress_toNat (s.reg x), rfl,
      (keepsAllBut_setIndex s _).trans (keepsAllBut_advance _)⟩⟩

end Sys2Proof
end

section
/-! SUPPORT. The ALU instructions with a flag (spec/42_alu.md R121, R128-R132): the flag is written first, and the
result is computed from the registers as they stand after that write. -/
namespace Sys2Proof.Machine
open Sys2Proof.Claims

variable {s : State} {i : Instr} {x y j : RegIdx} {b f : Byte} {alu : AluOp}

/-! ### What the registers hold after the flag -/

theorem reg_flag_same (s : State) (f : Byte) : (s.setReg vf f).reg 0xF#4 = f := reg_setReg_same s vf f

theorem reg_flag_other (f : Byte) (h : j ≠ 0xF#4) : (s.setReg vf f).reg j = s.reg j := reg_setReg_other s f h

/-- An instruction that writes the flag and then `V[x]` and advances: the flag stays unless x is VF. -/
theorem completes_of_setFlag_setReg (h : exec i s = .next ((s.setReg vf f).setReg x b).advance) :
    ∃ t, exec i s = .next t ∧ t.reg x = b ∧ (x ≠ 0xF#4 → t.reg 0xF#4 = f) ∧
      (∀ j, j ≠ x → j ≠ 0xF#4 → t.reg j = s.reg j) ∧ t.pc = s.pc + 2 ∧ KeepsAllBut [.regs, .pc] s t := by
  refine ⟨_, h, reg_setReg_same _ x b, fun hx => ?_, fun j hjx hjf => ?_, rfl,
    (keepsAllBut_writeFlag_setReg s (some f) x b).trans (keepsAllBut_advance _)⟩
  · exact (reg_setReg_other _ b hx.symm).trans (reg_flag_same s f)
  · exact (reg_setReg_other _ b hjx).trans (reg_flag_other f hjf)

theorem aluReg_of_flag (hflag : aluFlag s.cfg.shiftFlagNormalize alu (s.reg x) (s.reg y) = some f) :
    s.aluReg alu x y =
      (s.setReg vf f).setReg x (aluResult alu ((s.setReg vf f).reg x) ((s.setReg vf f).reg y)) := by
  simp only [State.aluReg, hflag, State.writeFlag]

theorem completes_of_aluReg_flag (h : exec i s = .next (s.aluReg alu x y).advance)
    (hflag : aluFlag s.cfg.shiftFlagNormalize alu (s.reg x) (s.reg y) = some f) :
    ∃ t, exec i s = .next t ∧ t.reg x = aluResult alu ((s.setReg vf f).reg x) ((s.setReg vf f).reg y) ∧
      (x ≠ 0xF#4 → t.reg 0xF#4 = f) ∧ (∀ j, j ≠ x → j ≠ 0xF#4 → t.reg j = s.reg j) ∧ t.pc = s.pc + 2 ∧
      KeepsAllBut [.regs, .pc] s t :=
  completes_of_setFlag_setReg (by rw [h, aluReg_of_flag hflag])

/-! ### The flags and results as numbers -/

theorem carryFlag_eq (a b : Byte) : carryFlag a b = if a.toNat + b.toNat > 255 then 1#8 else 0#8 := by
  simp only [carryFlag, bitFlag, decide_eq_true_eq]

theorem greaterFlag_eq (a b : Byte) : greaterFlag a b = if b.toNat > a.toNat then 1#8 else 0#8 := by
  simp only [greaterFlag, bitFlag, decide_eq_true_eq]

theorem byte_sub_toNat (a b : Byte) : (a - b).toNat = (a.toNat + 256 - b.toNat) % 256 := by
  have hb := b.isLt
  rw [BitVec.toNat_sub]
  omega

/-- The difference of two registers after the flag write: VF as an operand is the flag just written, and any other
operand is the old value. -/
theorem flagged_sub (s : State) (f : Byte) (u v : RegIdx) :
    (u ≠ 0xF#4 → v ≠ 0xF#4 → ((s.setReg vf f).reg u - (s.setReg vf f).reg v).toNat =
      ((s.reg u).toNat + 256 - (s.reg v).toNat) % 256) ∧
    (u ≠ 0xF#4 → v = 0xF#4 → ((s.setReg vf f).reg u - (s.setReg vf f).reg v).toNat =
      ((s.reg u).toNat + 256 - f.toNat) % 256) ∧
    (u = 0xF#4 → v ≠ 0xF#4 → ((s.setReg vf f).reg u - (s.setReg vf f).reg v).toNat =
      (f.toNat + 256 - (s.reg v).toNat) % 256) ∧
    (u = 0xF#4 → v = 0xF#4 → (s.setReg vf f).reg u - (s.setReg vf f).reg v = 0#8) := by
  refine ⟨fun hu hv => ?_, fun hu hv => ?_, fun hu hv => ?_, fun hu hv => ?_⟩
  · rw [reg_flag_other f hu, reg_flag_other f hv, byte_sub_toNat]
  · rw [reg_flag_other f hu, hv, reg_flag_same, byte_sub_toNat]
  · rw [hu, reg_flag_same, reg_flag_other f hv, byte_sub_toNat]
  · rw [hu, hv, BitVec.sub_self]

theorem lowBitFlag_toNat (a : Byte) : (lowBitFlag a).toNat = a.toNat % 2 := by
  rw [lowBitFlag, BitVec.toNat_and]
  exact Nat.and_one_is_mod a.toNat

theorem shiftRight_one_toNat (a : Byte) : (a >>> 1).toNat = a.toNat / 2 := by
  rw [BitVec.toNat_ushiftRight, Nat.shiftRight_eq_div_pow]

theorem shiftLeft_one_toNat (a : Byte) : (a <<< 1).toNat = a.toNat * 2 % 256 := by
  rw [BitVec.toNat_shiftLeft, Nat.shiftLeft_eq]

/-- The high bit of a byte says whether it is 128 or more. -/
theorem getLsbD_seven (a : Byte) : a.getLsbD 7 = decide (a.toNat ≥ 128) := BitVec.msb_eq_decide a

theorem highBitFlag_plain (a : Byte) : highBitFlag false a = if a.toNat ≥ 128 then 0x80#8 else 0x00#8 := by
  have hmask : a &&& 0x80#8 = if a.getLsbD 7 = true then 0x80#8 else 0x00#8 := BitVec.and_twoPow a 7
  rw [highBitFlag, if_neg Bool.false_ne_true, hmask, getLsbD_seven]
  simp only [decide_eq_true_eq]

theorem highBitFlag_normalized (a : Byte) : highBitFlag true a = if a.toNat ≥ 128 then 1#8 else 0#8 := by
  have hmask : a >>> 7 &&& 0x01#8 = if (a >>> 7).getLsbD 0 = true then 0x01#8 else 0x00#8 := BitVec.and_twoPow _ 0
  rw [highBitFlag, if_pos rfl, hmask, BitVec.getLsbD_ushiftRight, getLsbD_seven]
  simp only [decide_eq_true_eq]

/-! ### The five instructions -/

/-- Settles O37: the sum and its carry are both of the old values, and the flag is written before the sum. -/
theorem addSetsCarry : Obligations.AddSetsCarry := by
  refine fun x y => ⟨encodedAs_wordXY 0x8#4 0x4#4 rfl, fun s => ?_⟩
  obtain ⟨t, hexec, hx, hvf, hother, hpc, hkeep⟩ :=
    completes_of_setFlag_setReg (i := .addReg x y) (f := carryFlag (s.reg x) (s.reg y)) (b := s.reg x + s.reg y)
      (s := s) rfl
  refine ⟨t, hexec, ?_, fun hxF => (hvf hxF).trans (carryFlag_eq _ _), hother, hpc, hkeep⟩
  rw [hx, BitVec.toNat_add]

/-- Settles O38: the difference of the registers as they stand after the flag. -/
theorem subSetsBorrow : Obligations.SubSetsBorrow := by
  refine fun x y => ⟨encodedAs_wordXY 0x8#4 0x5#4 rfl, fun s f hf => ?_⟩
  obtain ⟨t, hexec, hx, hvf, hother, hpc, hkeep⟩ := completes_of_aluReg_flag (i := .subReg x y) rfl
    (congrArg some ((greaterFlag_eq (s.reg x) (s.reg y)).trans hf.symm))
  obtain ⟨hplain, hyF, hxF, hboth⟩ := flagged_sub s f x y
  rw [aluResult] at hx
  rw [← hx] at hplain hyF hxF hboth
  exact ⟨t, hexec, hvf, hplain, hyF, hxF, hboth, hother, hpc, hkeep⟩

/-- Settles O40: the flag is that of `8xy5`, and the difference is reversed. -/
theorem subnSetsComparison : Obligations.SubnSetsComparison := by
  refine fun x y => ⟨encodedAs_wordXY 0x8#4 0x7#4 rfl, fun s f hf => ?_⟩
  obtain ⟨t, hexec, hx, hvf, hother, hpc, hkeep⟩ := completes_of_aluReg_flag (i := .subnReg x y) rfl
    (congrArg some ((greaterFlag_eq (s.reg x) (s.reg y)).trans hf.symm))
  obtain ⟨hplain, hxF, hyF, hboth⟩ := flagged_sub s f y x
  rw [aluResult] at hx
  rw [← hx] at hplain hxF hyF hboth
  exact ⟨t, hexec, hvf, fun hx hy => hplain hy hx, fun hx hy => hyF hy hx, fun hx hy => hxF hy hx,
    fun hx hy => hboth hy hx, hother, hpc, hkeep⟩

/-- Settles O39: with x = VF the shift halves the flag bit just written, which gives 0. -/
theorem shrSetsBitShiftedOut : Obligations.ShrSetsBitShiftedOut := by
  refine fun x y => ⟨encodedAs_wordXY 0x8#4 0x6#4 rfl, fun s => ⟨fun _ => rfl, ?_⟩⟩
  obtain ⟨t, hexec, hx, hvf, hother, hpc, hkeep⟩ :=
    completes_of_aluReg_flag (i := .shrReg x y) (f := lowBitFlag (s.reg x)) (s := s) rfl rfl
  refine ⟨t, hexec, fun hxF => ⟨?_, ?_⟩, fun hxF => ?_, hother, hpc, hkeep⟩
  · rw [hx, reg_flag_other _ hxF]
    exact shiftRight_one_toNat _
  · rw [hvf hxF, lowBitFlag_toNat]
  · subst hxF
    rw [hx, reg_flag_same]
    apply BitVec.eq_of_toNat_eq
    rw [aluResult, shiftRight_one_toNat, lowBitFlag_toNat]
    exact Nat.div_eq_of_lt (Nat.mod_lt _ (by decide))

/-- Settles O41: with x = VF the shift doubles the flag just written, which loses 0x80 and turns 1 into 2. -/
theorem shlSetsBitShiftedOut : Obligations.ShlSetsBitShiftedOut := by
  refine fun x y => ⟨encodedAs_wordXY 0x8#4 0xE#4 rfl, fun s => ⟨fun _ => rfl, ?_⟩⟩
  obtain ⟨t, hexec, hx, hvf, hother, hpc, hkeep⟩ := completes_of_aluReg_flag (i := .shlReg x y)
    (f := highBitFlag s.cfg.shiftFlagNormalize (s.reg x)) (s := s) rfl rfl
  refine ⟨t, hexec, fun hxF => ?_, fun hxF hnorm => ?_, fun hxF hnorm => ?_, fun hxF hnorm => ?_,
    fun hxF hnorm => ?_, hother, hpc, hkeep⟩
  · rw [hx, reg_flag_other _ hxF]
    exact shiftLeft_one_toNat _
  · rw [hvf hxF, hnorm, highBitFlag_plain]
  · rw [hvf hxF, hnorm, highBitFlag_normalized]
  · subst hxF
    rw [hx, reg_flag_same, hnorm, highBitFlag_plain]
    split <;> rfl
  · subst hxF
    rw [hx, reg_flag_same, hnorm, highBitFlag_normalized]
    split <;> rfl

end Sys2Proof.Machine
end

section
/-! SUPPORT. Memory blocks (spec/44_keys_timers_memory.md R158-R160): the decimal digits, the stored and the loaded
registers, and that a stored word is fetched (spec/20_memory.md R62). -/
namespace Sys2Proof.Machine
open Sys2Proof.Claims

variable {s : State} {bs : List Byte}

/-! ### Block stores and loads that advance pc -/

/-- A completed block store: its bytes in memory, every other byte and everything else but pc as before. -/
theorem completes_of_writeBytes {i : Instr}
    (h : exec i s = .next (s.commit ((s.writeBytes s.i.toNat bs).map State.advance))) (hmem : s.MemCanonical)
    (hfits : s.i.toNat + bs.length ≤ memSize) :
    ∃ t, exec i s = .next t ∧ (∀ k (hk : k < bs.length), t.byte (s.i.toNat + k) = bs[k]) ∧
      (∀ a, a < s.i.toNat ∨ s.i.toNat + bs.length ≤ a → t.byte a = s.byte a) ∧ t.pc = s.pc + 2 ∧
      KeepsAllBut [.memory, .pc] s t := by
  obtain ⟨u, hu⟩ := writeBytes_inside s (.inr hfits)
  exact ⟨u.advance, exec_of_ok h hu, fun _ hk => writeBytes_byte_inside hu hmem hk,
    fun _ ha => writeBytes_byte_other (t := u) hu ha, advance_pc_of_pc_eq (writeBytes_pc hu),
    (keepsAllBut_writeBytes hu).trans (keepsAllBut_advance u)⟩

theorem takesFault_of_writeBytes {i : Instr}
    (h : exec i s = .next (s.commit ((s.writeBytes s.i.toNat bs).map State.advance))) (hne : bs ≠ [])
    (hout : memSize < s.i.toNat + bs.length) : TakesFault i s (.memoryBounds (max s.i.toNat 4096)) :=
  takesFault_of_error h (writeBytes_outside s hne hout)

/-- After a load of the `m` bytes from `a` up the first `m` registers hold them, and the others are unchanged. -/
theorem setRegsFrom_range_reg (s : State) (a : Nat) {m : Nat} (hm : m ≤ 16) (j : RegIdx) :
    (s.setRegsFrom 0 ((List.range m).map fun k => s.byte (a + k))).reg j =
      if j.toNat < m then s.byte (a + j.toNat) else s.reg j := by
  have hlen : ((List.range m).map fun k => s.byte (a + k)).length = m := by simp
  rw [setRegsFrom_reg s 0 _ (by omega)]
  by_cases hj : j.toNat < m
  · rw [dif_pos (by omega), if_pos hj]
    simp
  · rw [dif_neg (by omega), if_neg hj]

/-! ### The decimal digits (R158) -/

theorem digit_toNat {d : Nat} (h : d < 10) : (BitVec.ofNat 8 d).toNat = d := by
  rw [BitVec.toNat_ofNat]
  omega

/-- The digits stored by `Fx33` are decimal digits of the byte. -/
theorem bcdDigits_toNat (b : Byte) :
    (BitVec.ofNat 8 (b.toNat / 100)).toNat = b.toNat / 100 ∧
    (BitVec.ofNat 8 (b.toNat / 10 % 10)).toNat = b.toNat / 10 % 10 ∧
    (BitVec.ofNat 8 (b.toNat % 10)).toNat = b.toNat % 10 := by
  have hb := b.isLt
  exact ⟨digit_toNat (by omega), digit_toNat (by omega), digit_toNat (by omega)⟩

/-- Settles O54: the block written is the three digits, which fits exactly when I + 2 is in memory. -/
theorem storeDecimalDigits : Obligations.StoreDecimalDigits := by
  refine fun x => ⟨encodedAs_wordX 0xF#4 0x33#8 rfl, fun s => ⟨fun hmem hfits => ?_, fun hout => ?_⟩⟩
  · obtain ⟨t, hexec, hbytes, hother, hpc, hkeep⟩ := completes_of_writeBytes (i := .ldB x) rfl hmem hfits
    obtain ⟨h100, h10, h1⟩ := bcdDigits_toNat (s.reg x)
    have hbyte0 : (t.byte s.i.toNat).toNat = (s.reg x).toNat / 100 :=
      (congrArg BitVec.toNat (hbytes 0 (by decide : 0 < 3))).trans h100
    have hbyte1 : (t.byte (s.i.toNat + 1)).toNat = (s.reg x).toNat / 10 % 10 :=
      (congrArg BitVec.toNat (hbytes 1 (by decide : 1 < 3))).trans h10
    have hbyte2 : (t.byte (s.i.toNat + 2)).toNat = (s.reg x).toNat % 10 :=
      (congrArg BitVec.toNat (hbytes 2 (by decide : 2 < 3))).trans h1
    have hx := (s.reg x).isLt
    exact ⟨t, hexec, by omega, by omega, by omega, by omega, hother, hpc, hkeep⟩
  · exact takesFault_of_writeBytes rfl nofun (Nat.lt_succ_of_le hout)

/-! ### The register blocks (R159, R160) -/

/-- Settles O55: the block written is `V[0..x]`, which fits exactly when I + x is in memory. -/
theorem storeRegisterBlock : Obligations.StoreRegisterBlock := by
  refine fun x => ⟨encodedAs_wordX 0xF#4 0x55#8 rfl, fun s => ?_⟩
  have hlen := regBlock_length s x
  refine ⟨fun hmem hfits => ?_, fun hout => ?_⟩
  · obtain ⟨t, hexec, hbytes, hother, hpc, hkeep⟩ := completes_of_writeBytes (i := .storeRegs x) rfl hmem
      (hlen ▸ hfits)
    refine ⟨t, hexec, fun j hj => ?_, fun a ha => hother a (by omega), hpc, hkeep⟩
    have hin : j.toNat < (s.regBlock x).length := hlen ▸ Nat.lt_succ_of_le hj
    rw [hbytes j.toNat hin, regBlock_getElem s x j hin]
  · have hne : s.regBlock x ≠ [] := List.ne_nil_of_length_pos (hlen ▸ Nat.succ_pos _)
    exact takesFault_of_writeBytes rfl hne (hlen ▸ Nat.lt_succ_of_le hout)

/-- Settles O56: the block read is the x + 1 bytes from I up, which fits exactly when I + x is in memory. -/
theorem loadRegisterBlock : Obligations.LoadRegisterBlock := by
  refine fun x => ⟨encodedAs_wordX 0xF#4 0x65#8 rfl, fun s => ⟨fun hfits => ?_, fun hout => ?_⟩⟩
  · have hx := x.isLt
    have hread := readBytes_inside (a := s.i.toNat) (n := x.toNat + 1) s (.inr hfits)
    refine ⟨_, exec_of_ok (i := .loadRegs x) rfl hread, fun j hj => ?_, fun j hj => ?_,
      advance_pc_of_pc_eq (setRegsFrom_pc s 0 _), (keepsAllBut_setRegsFrom s 0 _).trans (keepsAllBut_advance _)⟩
    all_goals rw [advance_reg, setRegsFrom_range_reg s _ hx]
    · exact if_pos (Nat.lt_succ_of_le hj)
    · exact if_neg (by omega)
  · exact takesFault_of_error rfl (readBytes_outside s (Nat.succ_ne_zero _) (Nat.lt_succ_of_le hout))

/-- Settles O57: the load reads the bytes that the store wrote, at the I that neither changes. -/
theorem storeThenLoadRestoresRegisters : Obligations.StoreThenLoadRestoresRegisters := by
  intro x s hmem hfits
  obtain ⟨t, hstore, hbytes, -, -, hkeep⟩ := ((storeRegisterBlock x).2 s).1 hmem hfits
  have hi : t.i = s.i := hkeep .index (by decide)
  refine ⟨t, hstore, fun v => ?_⟩
  obtain ⟨u, hload, hregs, -⟩ := ((loadRegisterBlock x).2 { t with v := v }).1 (by rwa [hi])
  refine ⟨u, hload, fun j hj => (hregs j hj).trans ?_⟩
  rw [hi]
  exact hbytes j hj

/-- Settles O58: the two bytes at the fetch address are those that the store took from `V[j]` and `V[j+1]`. -/
theorem storedWordIsFetched : Obligations.StoredWordIsFetched := by
  intro x j s hmem hj hfits
  obtain ⟨t, hstore, hbytes, -⟩ := ((storeRegisterBlock x).2 s).1 hmem hfits
  refine ⟨t, hstore, fun p hp => ?_⟩
  have hx := x.isLt
  have hsucc : (j + 1#4).toNat = j.toNat + 1 := by
    rw [BitVec.toNat_add, BitVec.toNat_ofNat]
    omega
  have hlo := hbytes (j + 1#4) (hsucc ▸ hj)
  rw [hsucc, ← Nat.add_assoc] at hlo
  have hpc : (t.setPc p).pc.toNat = s.i.toNat + j.toNat := hp
  have hin : (t.setPc p).pc.toNat + 1 < memSize := by
    rw [hpc]
    exact Nat.lt_of_le_of_lt (Nat.add_le_add_left hj _) hfits
  rw [fetch_inside _ hin, hpc, setPc_byte, setPc_byte, hbytes j (Nat.le_of_lt hj), hlo]
  rfl

end Sys2Proof.Machine
end

section
/-! SUPPORT. Drawing a sprite (spec/43_index_random_draw.md R143, R144): the sprite's bits and the pixels they are sent
to in the terms of the statements, the order of the bits, and what a draw that runs leaves. -/
namespace Sys2Proof.Machine
open Sys2Proof.Claims

variable {s t : State} {x y : RegIdx} {n : Nibble} {b : SpriteBit} {e : DrawEdge} {cx cy : Nat}
  {bits : List SpriteBit} {px : Fin 64} {py : Fin 32} {f : Fault}

/-! ### The sprite and its bits -/

/-- The rows of the sprite of `n` bytes at I. -/
def State.spriteRows (s : State) (n : Nibble) : List Byte :=
  (List.range n.toNat).map fun k => s.byte (s.i.toNat + k)

theorem spriteRows_length (s : State) (n : Nibble) : (s.spriteRows n).length = n.toNat := by
  rw [State.spriteRows, List.length_map, List.length_range]

theorem readBytes_sprite (h : SpriteInMemory s n) : s.readBytes s.i.toNat n.toNat = .ok (s.spriteRows n) :=
  readBytes_inside s (h.imp_left (congrArg BitVec.toNat))

theorem mem_spriteBits_spriteRows : b ∈ spriteBits 0 (s.spriteRows n) ↔ SpriteBitSet s n b.row b.col := by
  rw [mem_spriteBits]
  constructor
  · rintro ⟨hcol, -, hrow, hset⟩
    exact ⟨spriteRows_length s n ▸ hrow, hcol, by simpa [State.spriteRows] using hset⟩
  · rintro ⟨hrow, hcol, hset⟩
    exact ⟨hcol, Nat.zero_le _, (spriteRows_length s n).symm ▸ hrow, by simpa [State.spriteRows] using hset⟩

theorem place_eq_some_iff_placedAt {c r : Nat} :
    place e cx cy { col := c, row := r } = some (px, py) ↔ PlacedAt e cx cy r c px py := by
  cases e
  all_goals exact place_eq_some

/-- The pixels that a sprite's bits are sent to. -/
def State.drawnPixels (s : State) (x y : RegIdx) (n : Nibble) : List (Fin 64 × Fin 32) :=
  (spriteBits 0 (s.spriteRows n)).filterMap (place s.cfg.drawEdge (s.reg x).toNat (s.reg y).toNat)

theorem mem_drawnPixels : (px, py) ∈ s.drawnPixels x y n ↔ Draws s x y n px py := by
  rw [State.drawnPixels, List.mem_filterMap]
  constructor
  · rintro ⟨b, hb, hplace⟩
    exact ⟨b.row, b.col, mem_spriteBits_spriteRows.mp hb, place_eq_some_iff_placedAt.mp hplace⟩
  · rintro ⟨r, c, hset, hplace⟩
    exact ⟨{ col := c, row := r }, mem_spriteBits_spriteRows.mpr hset, place_eq_some_iff_placedAt.mpr hplace⟩

/-! ### The frame buffer after a draw -/

/-- The frame buffer after a sprite's bits are drawn, and whether one of them turned a pixel off. -/
def State.drawn (s : State) (x y : RegIdx) (n : Nibble) : FrameBuffer × Bool :=
  drawBits s.cfg.drawEdge (s.reg x).toNat (s.reg y).toNat (spriteBits 0 (s.spriteRows n)) s.fb false

theorem drawn_spec (s : State) (x y : RegIdx) (n : Nibble) :
    (∀ (qx : Fin 64) (qy : Fin 32), (s.drawn x y n).1[qy][qx] =
      if (qx, qy) ∈ s.drawnPixels x y n then !s.fb[qy][qx] else s.fb[qy][qx]) ∧
    (s.drawn x y n).2 = (false || (s.drawnPixels x y n).any fun p => s.fb[p.2][p.1]) := by
  have hrows : (s.spriteRows n).length ≤ 16 := spriteRows_length s n ▸ Nat.le_of_lt n.isLt
  exact drawBits_spec _ _ _ _ _ _ (placed_nodup _ _ _ _ hrows)

theorem drawn_pixel_of_draws (h : Draws s x y n px py) : (s.drawn x y n).1[py][px] = !s.pixel px py := by
  rw [(drawn_spec s x y n).1, if_pos (mem_drawnPixels.mpr h), State.pixel]

theorem drawn_pixel_of_not_draws (h : ¬ Draws s x y n px py) : (s.drawn x y n).1[py][px] = s.pixel px py := by
  rw [(drawn_spec s x y n).1, if_neg (mt mem_drawnPixels.mp h), State.pixel]

theorem drawn_collides_iff : (s.drawn x y n).2 = true ↔ ∃ px py, Draws s x y n px py ∧ s.pixel px py = true := by
  rw [(drawn_spec s x y n).2, Bool.false_or, List.any_eq_true]
  constructor
  · rintro ⟨⟨px, py⟩, hmem, hlit⟩
    exact ⟨px, py, mem_drawnPixels.mp hmem, hlit⟩
  · rintro ⟨px, py, hdraws, hlit⟩
    exact ⟨(px, py), mem_drawnPixels.mpr hdraws, hlit⟩

/-! ### Draws that run -/

theorem checkDraw_ok (h : e = .fault → ∀ b ∈ bits, cx + b.col < 64 ∧ cy + b.row < 32) :
    checkDraw e cx cy bits = .ok () := by
  cases e
  case fault =>
    have hnone : bits.find? (fun b => 64 ≤ cx + b.col || 32 ≤ cy + b.row) = none := by
      refine List.find?_eq_none.mpr fun b hb => ?_
      obtain ⟨hcol, hrow⟩ := h rfl b hb
      simp only [Bool.or_eq_true, decide_eq_true_eq, not_or, Nat.not_le]
      exact ⟨hcol, hrow⟩
    rw [checkDraw, hnone]
  all_goals rfl

theorem drawSprite_of_drawRuns (h : DrawRuns s x y n) :
    s.drawSprite x y n = .ok (State.setReg { s with fb := (s.drawn x y n).1 } vf (bitFlag (s.drawn x y n).2)) := by
  obtain ⟨hmem, hscreen⟩ := h
  have hcheck : checkDraw s.cfg.drawEdge (s.reg x).toNat (s.reg y).toNat (spriteBits 0 (s.spriteRows n)) = .ok () :=
    checkDraw_ok fun hedge b hb => hscreen hedge b.row b.col (mem_spriteBits_spriteRows.mp hb)
  simp only [State.drawSprite, readBytes_sprite hmem, hcheck]
  rfl

theorem nibbleSetWidth_eq_encodeXYN : n.setWidth 16 = encodeXYN 0#4 0#4 0#4 n := by
  apply BitVec.eq_of_toNat_eq
  have hn := n.isLt
  rw [encodeXYN_toNat, BitVec.toNat_setWidth]
  simp only [BitVec.toNat_ofNat]
  omega

/-- The count has bits of its own, so `or` sets it beside the operation and the registers. -/
theorem encodedAs_drw (x y : RegIdx) (n : Nibble) :
    EncodedAs (.drw x y n) (wordXY 0xD000#16 x y ||| n.setWidth 16) 0xF000#16 := by
  have hword : wordXY 0xD000#16 x y = encodeXYN 0xD#4 x y 0#4 := wordXY_eq_encodeXYN (op := 0xD#4) (n := 0#4)
  have hlow : (y ++ 0#4) ||| (0#4 ++ n) = y ++ n := by rw [BitVec.or_append, BitVec.zero_or, BitVec.or_zero]
  rw [hword, nibbleSetWidth_eq_encodeXYN]
  simp only [encodeXYN_eq_encodeXNN, encodeXNN_or, BitVec.or_zero, hlow]
  rw [← encodeXYN_eq_encodeXNN]
  exact encodedAs_encode (.drw x y n)

/-- Settles O45: the toggled pixels are those that set bits are sent to, and the flag is written last. -/
theorem drawTogglesExactlyTheSprite : Obligations.DrawTogglesExactlyTheSprite := by
  refine fun x y n => ⟨encodedAs_drw x y n, fun s hruns => ?_⟩
  have hdraw := drawSprite_of_drawRuns hruns
  refine ⟨_, exec_of_ok (i := .drw x y n) rfl hdraw, fun _ _ => drawn_pixel_of_draws,
    fun _ _ => drawn_pixel_of_not_draws, fun hlit => ?_, fun hlit => ?_,
    fun j hj => reg_setReg_other _ _ hj, rfl, ?_⟩
  · exact (reg_flag_same _ _).trans (congrArg bitFlag (drawn_collides_iff.mpr hlit))
  · exact (reg_flag_same _ _).trans
      (congrArg bitFlag (Bool.eq_false_iff.mpr (mt drawn_collides_iff.mp hlit)))
  · exact ((keepsAllBut_drawSprite hdraw).trans (keepsAllBut_advance _)).mono (by decide)

/-! ### Drawing twice -/

/-- What a draw reads besides the display: the bytes at I, the setting and the two coordinates. -/
structure SameSprite (x y : RegIdx) (s t : State) : Prop where
  byte : ∀ a, t.byte a = s.byte a
  index : t.i = s.i
  cfg : t.cfg = s.cfg
  column : t.reg x = s.reg x
  row : t.reg y = s.reg y

theorem SameSprite.bitSet (h : SameSprite x y s t) {r c : Nat} : SpriteBitSet t n r c ↔ SpriteBitSet s n r c := by
  rw [SpriteBitSet, SpriteBitSet, h.index, h.byte]

theorem SameSprite.draws (h : SameSprite x y s t) : Draws t x y n px py ↔ Draws s x y n px py := by
  simp only [Draws, h.bitSet, h.cfg, h.column, h.row]

theorem SameSprite.drawRuns (h : SameSprite x y s t) (hruns : DrawRuns s x y n) : DrawRuns t x y n := by
  simpa only [DrawRuns, SpriteInMemory, SpriteOnScreen, h.bitSet, h.index, h.cfg, h.column, h.row] using hruns

/-- Settles O46: the second draw sends the same bits to the same pixels, so each is toggled twice or never. -/
theorem drawingTwiceRestoresDisplay : Obligations.DrawingTwiceRestoresDisplay := by
  intro x y n s hx hy hruns
  obtain ⟨t, ht, htoggled, hkept, hcollide, -, hregs, -, hkeep⟩ := (drawTogglesExactlyTheSprite x y n).2 s hruns
  have hsame : SameSprite x y s t :=
    ⟨hkeep .memory (by decide), hkeep .index (by decide), hkeep .cfg (by decide), hregs x hx, hregs y hy⟩
  obtain ⟨u, hu, htoggled', hkept', hcollide', hclear', -⟩ :=
    (drawTogglesExactlyTheSprite x y n).2 t (hsame.drawRuns hruns)
  simp only [hsame.draws] at htoggled' hkept' hcollide' hclear'
  refine ⟨t, u, ht, hu, fun px py => ?_, fun hflag hdraws => hcollide' ?_, fun hnone => hclear' ?_⟩
  · by_cases hdraws : Draws s x y n px py
    · rw [htoggled' px py hdraws, htoggled px py hdraws, Bool.not_not]
    · rw [hkept' px py hdraws, hkept px py hdraws]
  · obtain ⟨px, py, hdraws⟩ := hdraws
    have hoff : s.pixel px py = false := by
      by_contra hlit
      have hset := hcollide ⟨px, py, hdraws, eq_true_of_ne_false hlit⟩
      rw [hflag] at hset
      exact absurd hset (by decide)
    exact ⟨px, py, hdraws, by rw [htoggled px py hdraws, hoff, Bool.not_false]⟩
  · rintro ⟨px, py, hdraws, -⟩
    exact hnone ⟨px, py, hdraws⟩

/-! ### Draws that fault -/

/-- The row-then-column order of a sprite's bits (R143). -/
def SpriteBit.Before (a b : SpriteBit) : Prop := a.row < b.row ∨ (a.row = b.row ∧ a.col < b.col)

theorem rowBits_ordered (row : Nat) (v : Byte) : (rowBits row v).Pairwise SpriteBit.Before :=
  List.pairwise_map.mpr ((List.pairwise_lt_range.filter _).imp fun h => .inr ⟨rfl, h⟩)

/-- The bits of a sprite are listed in row-then-column order. -/
theorem spriteBits_ordered (row : Nat) (rows : List Byte) : (spriteBits row rows).Pairwise SpriteBit.Before := by
  induction rows generalizing row with
  | nil => exact .nil
  | cons v vs ih =>
    refine List.pairwise_append.mpr ⟨rowBits_ordered row v, ih _, fun a ha b hb => .inl ?_⟩
    obtain ⟨c, -, rfl⟩ := List.mem_map.mp ha
    exact (mem_spriteBits.mp hb).2.1

/-- In an ordered list the first element that passes a test is the one before which none does. -/
theorem find?_of_ordered {p : SpriteBit → Bool} (hord : bits.Pairwise SpriteBit.Before) (hb : b ∈ bits)
    (hp : p b = true) (hfirst : ∀ a ∈ bits, a.Before b → p a = false) : bits.find? p = some b := by
  obtain ⟨before, after, rfl⟩ := List.append_of_mem hb
  refine List.find?_eq_some_iff_append.mpr ⟨hp, before, after, rfl, fun a ha => ?_⟩
  have hab : a.Before b := (List.pairwise_append.mp hord).2.2 a ha b List.mem_cons_self
  rw [hfirst a (List.mem_append_left _ ha) hab, Bool.not_false]

theorem drawSprite_of_readBytes_error (h : s.readBytes s.i.toNat n.toNat = .error f) :
    s.drawSprite x y n = .error f := by
  simp only [State.drawSprite, h]

theorem toNat_ne_zero_of_ne (hn : n ≠ 0#4) : n.toNat ≠ 0 := fun h => hn (BitVec.eq_of_toNat_eq h)

theorem takesFault_drw_of_outside (hn : n ≠ 0#4) (hout : memSize < s.i.toNat + n.toNat) :
    TakesFault (.drw x y n) s (.memoryBounds (max s.i.toNat memSize)) := by
  exact takesFault_of_error rfl (drawSprite_of_readBytes_error (readBytes_outside s (toNat_ne_zero_of_ne hn) hout))

/-- With DRAW_EDGE = Fault a set bit off the screen before which no set bit is stops the draw. -/
theorem drawSprite_of_first_off {r c : Nat} (hmem : SpriteInMemory s n) (hedge : s.cfg.drawEdge = .fault)
    (hset : SpriteBitSet s n r c) (hoff : 64 ≤ (s.reg x).toNat + c ∨ 32 ≤ (s.reg y).toNat + r)
    (hfirst : ∀ r' c', SpriteBitSet s n r' c' → (r' < r ∨ (r' = r ∧ c' < c)) →
      (s.reg x).toNat + c' < 64 ∧ (s.reg y).toNat + r' < 32) :
    s.drawSprite x y n = .error (.drawOutOfRange ((s.reg x).toNat + c) ((s.reg y).toNat + r)) := by
  have hfind : (spriteBits 0 (s.spriteRows n)).find?
      (fun b => 64 ≤ (s.reg x).toNat + b.col || 32 ≤ (s.reg y).toNat + b.row) = some { col := c, row := r } := by
    refine find?_of_ordered (spriteBits_ordered 0 _) (mem_spriteBits_spriteRows.mpr hset) ?_ fun a ha hbefore => ?_
    · simpa only [Bool.or_eq_true, decide_eq_true_eq] using hoff
    · obtain ⟨hcol, hrow⟩ := hfirst a.row a.col (mem_spriteBits_spriteRows.mp ha) hbefore
      simp only [Bool.or_eq_false_iff, decide_eq_false_iff_not, Nat.not_le]
      exact ⟨hcol, hrow⟩
  simp only [State.drawSprite, readBytes_sprite hmem, checkDraw, hedge, hfind]

/-- Settles O47: the rows are read before the check, and the check meets the bits in row-then-column order. -/
theorem drawFaultsBeforeToggling : Obligations.DrawFaultsBeforeToggling := by
  intro x y n s
  refine ⟨fun hn hI => ?_, fun hI hout => ?_, fun r c hmem hedge hset hoff hfirst => ?_⟩
  · have hmax : max s.i.toNat memSize = s.i.toNat := Nat.max_eq_left hI
    have hpos : 0 < n.toNat := Nat.pos_of_ne_zero (toNat_ne_zero_of_ne hn)
    exact hmax ▸ takesFault_drw_of_outside hn (Nat.lt_of_le_of_lt hI (Nat.lt_add_of_pos_right hpos))
  · have hmax : max s.i.toNat memSize = 4096 := Nat.max_eq_right (Nat.le_of_lt hI)
    have hn : n ≠ 0#4 := by
      rintro rfl
      exact Nat.lt_asymm hI hout
    exact hmax ▸ takesFault_drw_of_outside hn hout
  · exact takesFault_of_error rfl (drawSprite_of_first_off hmem hedge hset hoff hfirst)

end Sys2Proof.Machine
end

section
/-! SUPPORT. The key event of a cycle that is not paused (spec/40_cycle.md R98, spec/60_exceptions.md R186): an
instruction reads the input record's random byte and key states only, so its outcome is the same with other pending
records that agree on those. -/
namespace Sys2Proof.Machine

variable {s t u : State} {i : Instr} {l : List CycleInput} {x y : RegIdx} {α : Type}

/-- The state with other pending input records. -/
def State.withInputs (s : State) (l : List CycleInput) : State := { s with inputs := l }

/-! ### The operations do not read the pending records -/

@[simp] theorem withInputs_pc (s : State) (l : List CycleInput) : (s.withInputs l).pc = s.pc := rfl
@[simp] theorem withInputs_i (s : State) (l : List CycleInput) : (s.withInputs l).i = s.i := rfl
@[simp] theorem withInputs_cfg (s : State) (l : List CycleInput) : (s.withInputs l).cfg = s.cfg := rfl
@[simp] theorem withInputs_reg (s : State) (l : List CycleInput) (j : RegIdx) :
    (s.withInputs l).reg j = s.reg j := rfl
@[simp] theorem withInputs_regBlock (s : State) (l : List CycleInput) (x : RegIdx) :
    (s.withInputs l).regBlock x = s.regBlock x := rfl

theorem readBytes_withInputs (a n : Nat) : (s.withInputs l).readBytes a n = s.readBytes a n := by
  induction n generalizing a with
  | zero => rfl
  | succ n ih =>
    simp only [State.readBytes, ih]
    rfl

theorem writeBytes_withInputs (a : Nat) (bs : List Byte) :
    (s.withInputs l).writeBytes a bs = (s.writeBytes a bs).map fun t => t.withInputs l := by
  induction bs generalizing a s with
  | nil => rfl
  | cons c bs ih =>
    by_cases ha : a < memSize
    · simp only [State.writeBytes, memWrite_inside _ c ha]
      exact ih (s := { s with mem := writeCell s.cfg s.mem a c }) (a + 1)
    · simp only [State.writeBytes, memWrite_outside _ c (Nat.le_of_not_lt ha)]
      rfl

theorem setRegsFrom_withInputs (k : Nat) (bs : List Byte) :
    (s.withInputs l).setRegsFrom k bs = (s.setRegsFrom k bs).withInputs l := by
  induction bs generalizing s k with
  | nil => rfl
  | cons c bs ih => exact ih (s := s.setReg (BitVec.ofNat 4 k) c) (k + 1)

theorem drawSprite_withInputs {n : Nibble} :
    (s.withInputs l).drawSprite x y n = (s.drawSprite x y n).map fun t => t.withInputs l := by
  simp only [State.drawSprite, withInputs_i, withInputs_cfg, withInputs_reg, readBytes_withInputs]
  split
  · rfl
  · split <;> rfl

theorem pop_withInputs : (s.withInputs l).pop = s.pop.map fun p => (p.1, p.2.withInputs l) := by
  have hstack : (s.withInputs l).stack = s.stack := rfl
  simp only [State.pop, hstack]
  cases s.stack <;> rfl

theorem push_withInputs (v : Word) : (s.withInputs l).push v = (s.push v).map fun t => t.withInputs l := by
  have hfull : (s.withInputs l).stackFull = s.stackFull := rfl
  simp only [State.push, hfull]
  split <;> rfl

/-- An execute step that computes a value without reading the pending records and builds its new state from it. -/
theorem commit_map_withInputs {r : Except Fault α} {g g' : α → State} (h : ∀ a, g' a = (g a).withInputs l) :
    (s.withInputs l).commit (r.map g') = (s.commit (r.map g)).withInputs l := by
  cases r with
  | error f => rfl
  | ok a => exact h a

/-- An execute step that ends with the PC advance of the state an operation answers. -/
theorem commit_advance_withInputs (r : Except Fault State) :
    (s.withInputs l).commit ((r.map fun t => t.withInputs l).map State.advance) =
      (s.commit (r.map State.advance)).withInputs l := by
  cases r <;> rfl

/-- With other pending records that give the same random byte and key states an instruction does the same. -/
theorem exec_withInputs (hrand : (s.withInputs l).randByte = s.randByte)
    (hkeys : (s.withInputs l).keyPressed = s.keyPressed) (h : exec i s = .next t) :
    exec i (s.withInputs l) = .next (t.withInputs l) := by
  cases i
  all_goals
    obtain rfl := Host.Outcome.next.inj h
    refine congrArg Host.Outcome.next ?_
  case rnd =>
    rw [hrand]
    rfl
  case skp | sknp =>
    rw [hkeys]
    exact commit_map_withInputs fun _ => rfl
  case ret =>
    rw [pop_withInputs]
    cases s.pop <;> rfl
  case call =>
    rw [withInputs_pc, push_withInputs]
    cases s.push (s.pc + 2) <;> rfl
  case ldB =>
    rw [withInputs_i, withInputs_reg, writeBytes_withInputs]
    exact commit_advance_withInputs _
  case storeRegs =>
    rw [withInputs_i, withInputs_regBlock, writeBytes_withInputs]
    exact commit_advance_withInputs _
  case drw =>
    rw [drawSprite_withInputs]
    exact commit_advance_withInputs _
  case loadRegs =>
    rw [readBytes_withInputs]
    exact commit_map_withInputs fun bs => congrArg State.advance (setRegsFrom_withInputs 0 bs)
  all_goals rfl

/-- The end of the cycle drops the first pending record, whatever it was. -/
theorem endCycle_withInputs (hu : u.fault = none) (hl : l.tail = u.inputs.tail) :
    (u.withInputs l).endCycle = u.endCycle := by
  rw [endCycle_running hu, endCycle_running (s := u.withInputs l) hu]
  simp only [State.withInputs, State.nextInput, State.timerUpdate, hl]

/-- Settles O15: the instruction does not read the key event, and the end of the cycle drops its record. -/
theorem keyEventIgnoredUnlessPaused : Obligations.KeyEventIgnoredUnlessPaused := by
  intro s t r rest k hpaused hinputs h ht
  by_cases hs : s.fault = none
  · cases liveStep_of_step hs h with
    | faulted f => cases ht
    | paused hp => exact absurd (hpaused.symm.trans hp) Bool.false_ne_true
    | executed hnext hexec hu =>
      have hinput : s.input = r := by rw [State.input, hinputs]
      have hrand : (s.withInputs ({ r with keyEvent := k } :: rest)).randByte = s.randByte :=
        (congrArg CycleInput.rand hinput).symm
      have hkeys : (s.withInputs ({ r with keyEvent := k } :: rest)).keyPressed = s.keyPressed :=
        funext fun key => (congrArg (fun q : CycleInput => q.pressed[key.toNat]) hinput).symm
      have hstep := step_of_exec (s := s.withInputs ({ r with keyEvent := k } :: rest)) hnext
        (exec_withInputs hrand hkeys hexec)
      rwa [endCycle_withInputs hu (by rw [exec_inputs hexec, hinputs]; rfl)] at hstep
  · obtain rfl := Host.Outcome.next.inj ((step_of_halted hs).symm.trans h)
    exact absurd ht hs

end Sys2Proof.Machine
end

section
/-! SUPPORT. The simulation driver (spec/70_reset_and_hazards.md R210): the loop subtracts one tick for each cycle it
runs, and the fuel of driveCycles is enough for all of them. -/
namespace Sys2Proof.Machine

variable {s t : State} {d e : Driver} {n elapsed : Nat}

/-- A step that starts and ends without a fault adds one to the counter. -/
theorem step_cycles (hs : s.fault = none) (h : step s = .next t) (ht : t.fault = none) : t.cycles = s.cycles + 1 := by
  cases liveStep_of_step hs h with
  | faulted f => cases ht
  | paused _ =>
    have hsame : s.resume.cycles = s.cycles := keepsAllBut_resume s .cycles (by decide)
    rw [endCycle_cycles ((resume_fault s).trans hs), hsame]
  | executed _ hexec hu => rw [endCycle_cycles hu, exec_cycles hexec]

/-! ### The loop, case by case -/

theorem driveCycles_of_fault (h : d.core.fault ≠ none) : driveCycles (n + 1) d = { d with closed := true } :=
  if_pos (Option.isSome_iff_ne_none.mpr h)

theorem driveCycles_of_le (hfault : d.core.fault = none) (hacc : d.acc ≤ d.tick) : driveCycles (n + 1) d = d := by
  simp [driveCycles, hfault, Nat.not_lt.mpr hacc]

theorem driveCycles_of_lt (hfault : d.core.fault = none) (hacc : d.tick < d.acc) (hstep : step d.core = .next s) :
    driveCycles (n + 1) d = driveCycles n { d with core := s, acc := d.acc - d.tick } := by
  simp [driveCycles, hfault, hacc, hstep]

/-- From `d` to `e` the driver ran `k` cycles and subtracted a tick for each, until at most one tick was left; since it
runs a cycle only when more than a tick is left, something stays after the last. -/
def RanCycles (k : Nat) (d e : Driver) : Prop :=
  e.core.cycles = d.core.cycles + k ∧ d.acc = e.acc + d.tick * k ∧ e.acc ≤ d.tick ∧ (0 < k → 0 < e.acc) ∧
    e.presents = d.presents

theorem ranCycles_zero (hacc : d.acc ≤ d.tick) : RanCycles 0 d d :=
  ⟨rfl, rfl, hacc, nofun, rfl⟩

/-- One more cycle in front. -/
theorem RanCycles.succ {k : Nat} (hacc : d.tick < d.acc) (hs : s.cycles = d.core.cycles + 1)
    (h : RanCycles k { d with core := s, acc := d.acc - d.tick } e) : RanCycles (k + 1) d e := by
  obtain ⟨hcycles, htime, hle, hpos, hpresents⟩ := h
  simp only at hcycles htime hle
  refine ⟨by omega, by rw [Nat.mul_succ]; omega, hle, fun _ => ?_, hpresents⟩
  obtain rfl | hk := Nat.eq_zero_or_pos k
  · rw [Nat.mul_zero] at htime
    omega
  · exact hpos hk

theorem exists_ranCycles (hfuel : d.acc < n) (htick : 0 < d.tick) (hopen : (driveCycles n d).closed = false) :
    ∃ k, RanCycles k d (driveCycles n d) := by
  induction n generalizing d with
  | zero => exact absurd hfuel (Nat.not_lt_zero _)
  | succ n ih =>
    by_cases hfault : d.core.fault = none
    · obtain hacc | hacc := Nat.lt_or_ge d.tick d.acc
      · obtain ⟨s, hstep, -⟩ := everyStepContinues d.core
        rw [driveCycles_of_lt hfault hacc hstep] at hopen ⊢
        have hfuel' : d.acc - d.tick < n := by omega
        have hs : s.fault = none := by
          by_contra hfaulted
          obtain ⟨m, rfl⟩ := Nat.exists_eq_succ_of_ne_zero (Nat.ne_zero_of_lt hfuel')
          rw [driveCycles_of_fault hfaulted] at hopen
          cases hopen
        obtain ⟨k, hk⟩ := ih (d := { d with core := s, acc := d.acc - d.tick }) hfuel' htick hopen
        exact ⟨k + 1, hk.succ hacc (step_cycles hfault hstep hs)⟩
      · rw [driveCycles_of_le hfault hacc]
        exact ⟨0, ranCycles_zero hacc⟩
    · rw [driveCycles_of_fault hfault] at hopen
      cases hopen

/-- An iteration that ends open is the elapsed time, the cycles and one render pass. -/
theorem driveFrame_of_open (hd : d.closed = false) (h : (driveFrame false elapsed d).closed = false) :
    ∃ e, driveCycles (d.acc + elapsed + 1) { d with acc := d.acc + elapsed } = e ∧ e.closed = false ∧
      driveFrame false elapsed d = { e with presents := e.presents + 1 } := by
  refine ⟨_, rfl, ?_⟩
  simp only [driveFrame, hd, Bool.or_self, Bool.false_eq_true, if_false] at h ⊢
  split at h
  case isTrue hclosed => exact absurd (h.symm.trans hclosed) Bool.false_ne_true
  case isFalse hopen => exact ⟨Bool.eq_false_iff.mpr hopen, if_neg hopen⟩

/-- Settles O59, from the number of cycles that the loop runs. -/
theorem driverRunsWholeTicks : Obligations.DriverRunsWholeTicks := by
  intro d elapsed hd htick hopen
  obtain ⟨e, he, heopen, hframe⟩ := driveFrame_of_open hd hopen
  obtain ⟨k, hk⟩ := exists_ranCycles (d := { d with acc := d.acc + elapsed }) (Nat.lt_succ_self _) htick
    (he ▸ heopen)
  rw [he] at hk
  obtain ⟨hcycles, htime, hle, hpos, hpresents⟩ := hk
  simp only at hcycles htime hle hpresents
  rw [hframe]
  simp only [hcycles, Nat.add_sub_cancel_left]
  exact ⟨hle, Nat.le_add_right _ _, htime, fun hran => hpos (Nat.pos_of_lt_add_right hran), congrArg (· + 1) hpresents⟩

end Sys2Proof.Machine
end
